-- ==== Sys2Proof/Word.lean ====
section
/-! DEFINITION. The words of TEA-CORE, and the closed sets of names the spec uses: access sizes (R53), registers (R51),
directions (R81), the four key words (R102), the running halves and sum of a round (R105), and the two formats (R80). -/

namespace Sys2Proof

/-- A u32: every register and every value of the engine (spec/00_scope.md R7). -/
abbrev Word := BitVec 32

/-- One byte of a host buffer (spec/42_buffer_operations.md R150). -/
abbrev Byte := BitVec 8

/-- `ADDR`: a byte offset of the 64-byte register address space (spec/20_memory.md R50, R53). -/
abbrev Addr := BitVec 6

/-- A result variable of a host program (R42, R88), by its number.
DESIGN CHOICE (log entry 5): a name is notation, the transcriber turns it into its number. -/
abbrev Var := Nat

/-- `SIZE` of a bus transaction (R53, R82). -/
inductive Size where
  | bytes1
  | bytes2
  | bytes4
  | reserved
  deriving DecidableEq, Repr

/-- The nine programmer-visible registers (R20, R51). -/
inductive Reg where
  | ctrl
  | status
  | rounds
  | key0
  | key1
  | key2
  | key3
  | data0
  | data1
  deriving DecidableEq, Repr

/-- The direction of an operation: `DIR` of a CMD word, and `DIR_L` (R81, R36: 0 encrypt, 1 decrypt). -/
inductive Direction where
  | encrypt
  | decrypt
  deriving DecidableEq, Repr

/-- The four key words (R102). -/
structure Key where
  k0 : Word
  k1 : Word
  k2 : Word
  k3 : Word
  deriving DecidableEq, Repr

/-- What one round maps: both halves of the block and the sum (R105, R107). -/
structure Halves where
  v0  : Word
  v1  : Word
  sum : Word
  deriving DecidableEq, Repr

/-- The two formats of R80: a 32-bit command word, and the 41-bit listing form of a bus transaction. -/
inductive Encoded where
  | cmd (word : BitVec 32)
  | bus (word : BitVec 41)
  deriving DecidableEq, Repr

end Sys2Proof
end

