-- ==== Sys2Proof/Syntax.lean ====
section
/-! DEFINITION. The instructions of TEA-CORE: one constructor for each row of spec/opcode_table.json (R84). -/

namespace Sys2Proof

/-- The commands a host writes to CTRL (format CMD) and the bus transactions (format BUS).
The bits an instruction ignores are kept, so that encoding loses nothing. -/
inductive Instr where
  /-- NOP: START = 0. DIR and RSVD are ignored (R81, R121). -/
  | nop (dir : BitVec 1) (rsvd : BitVec 30)
  /-- ENCRYPT: CMD word 0x00000001 (R122). -/
  | encrypt
  /-- DECRYPT: CMD word 0x00000003 (R123). -/
  | decrypt
  /-- RD: a bus transaction with WE = 0. WDATA is ignored (R53, R55). -/
  | rd (size : Size) (addr : Addr) (wdata : Word)
  /-- WR: a bus transaction with WE = 1 (R56). -/
  | wr (size : Size) (addr : Addr) (wdata : Word)
  deriving DecidableEq, Repr

end Sys2Proof
end

