-- ==== Sys2Proof/Decode.lean ====
section
/-! DEFINITION. The decoder of R84 (total, rejecting by name), the encoder of R81 and R82, and the numbering of
spec/opcode_table.json. -/

namespace Sys2Proof

/-- Why an encoding is no instruction. -/
inductive DecodeError where
  /-- A CMD word with START = 1 and a reserved bit set (R84 "illegal", R85). Written to CTRL it still has the effect
  R120 gives it (`Machine.command`): only the opcode table has no row for it. -/
  | illegalCommand
  /-- A number with a bit above the 32 of a CMD word or the 41 of a BUS listing (R80: "There are no other lengths"). -/
  | bitsAboveFormat
  /-- A length that is neither format's (R80). -/
  | unknownLength
  deriving DecidableEq, Repr

/-- `SIZE`: `00` is 1 byte, `01` is 2 bytes, `10` is 4 bytes, `11` is reserved (R53, R82). -/
def Size.ofBits (b : BitVec 2) : Size :=
  match b.toNat with
  | 0 => .bytes1
  | 1 => .bytes2
  | 2 => .bytes4
  | _ => .reserved

/-- The two bits of `SIZE` (R53, R82). -/
def Size.toBits : Size → BitVec 2
  | .bytes1 => 0b00#2
  | .bytes2 => 0b01#2
  | .bytes4 => 0b10#2
  | .reserved => 0b11#2

/-- The fields of a CMD word (R81). -/
def cmdStart (w : Word) : Bool := w.getLsbD 0

/-- `DIR` as a bit (R81). -/
def cmdDirBit (w : Word) : BitVec 1 := w.extractLsb' 1 1

/-- `RSVD` (R81). -/
def cmdRsvd (w : Word) : BitVec 30 := w.extractLsb' 2 30

/-- `DIR` as a direction: 0 encrypt, 1 decrypt (R81). -/
def cmdDirection (w : Word) : Direction := if w.getLsbD 1 then .decrypt else .encrypt

/-- The CMD map of R84. -/
def decodeCmd (w : Word) : Except DecodeError Instr :=
  if cmdStart w = false then .ok (.nop (cmdDirBit w) (cmdRsvd w))
  else if w = 0x00000001#32 then .ok .encrypt
  else if w = 0x00000003#32 then .ok .decrypt
  else .error .illegalCommand

/-- A BUS listing is decoded by WE: 0 is RD and 1 is WR (R82, R84). Every listing is one of the two. -/
def decodeBus (w : BitVec 41) : Instr :=
  if w.getLsbD 40 then .wr (Size.ofBits (w.extractLsb' 38 2)) (w.extractLsb' 32 6) (w.extractLsb' 0 32)
  else .rd (Size.ofBits (w.extractLsb' 38 2)) (w.extractLsb' 32 6) (w.extractLsb' 0 32)

/-- The decoder. Which format a word has is known from where it stands (R87), so it is part of the input. -/
def decode : Encoded → Except DecodeError Instr
  | .cmd w => decodeCmd w
  | .bus w => .ok (decodeBus w)

/-- `{WE, SIZE, ADDR, WDATA}`: WE at bit 40, SIZE at 39:38, ADDR at 37:32, WDATA at 31:0 (R82). -/
def busWord (we : BitVec 1) (size : Size) (addr : Addr) (wdata : Word) : BitVec 41 :=
  we.setWidth 41 <<< 40 ||| size.toBits.setWidth 41 <<< 38 ||| addr.setWidth 41 <<< 32 ||| wdata.setWidth 41

/-- `{RSVD, DIR, START}`: RSVD at 31:2, DIR at bit 1, START at bit 0 (R81). -/
def cmdWord (rsvd : BitVec 30) (dir : BitVec 1) (start : BitVec 1) : Word :=
  rsvd.setWidth 32 <<< 2 ||| dir.setWidth 32 <<< 1 ||| start.setWidth 32

/-- The encoder, from the tables of R81 and R82. -/
def encode : Instr → Encoded
  | .nop dir rsvd => .cmd (cmdWord rsvd dir 0#1)
  | .encrypt => .cmd (cmdWord 0#30 0#1 1#1)
  | .decrypt => .cmd (cmdWord 0#30 1#1 1#1)
  | .rd size addr wdata => .bus (busWord 0#1 size addr wdata)
  | .wr size addr wdata => .bus (busWord 1#1 size addr wdata)

/-- The number of bits of a format (R80). -/
def Encoded.width : Encoded → Nat
  | .cmd _ => 32
  | .bus _ => 41

/-- An encoding as one number, bit 0 its least significant bit (R6). -/
def Encoded.toNat : Encoded → Nat
  | .cmd w => w.toNat
  | .bus w => w.toNat

/-- Reads the number `w` of `nbits` bits, as spec/opcode_table.json numbers them: a CMD word has 32 bits, a BUS listing
41, given in whole bytes (48). -/
def encodedOfTable (nbits w : Nat) : Except DecodeError Encoded :=
  if nbits ≤ 32 then
    if w < 2 ^ 32 then .ok (.cmd (BitVec.ofNat 32 w)) else .error .bitsAboveFormat
  else if nbits ≤ 48 then
    if w < 2 ^ 41 then .ok (.bus (BitVec.ofNat 41 w)) else .error .bitsAboveFormat
  else .error .unknownLength

/-- The instruction the decoder reads from a word of the opcode table. -/
def decodeTableWord (nbits w : Nat) : Option Instr :=
  match encodedOfTable nbits w with
  | .ok e => (decode e).toOption
  | .error _ => none

end Sys2Proof
end

