-- ==== Sys2Proof/Machine/Cipher.lean ====
section
/-! DEFINITION. The cipher functions of spec/40_cipher_functions.md: F, the two rounds, encrypt_block and decrypt_block. -/

namespace Sys2Proof.Machine

/-- `DELTA` (R100). -/
def delta : Word := 0x9E3779B9#32

/-- The mixing function `F(x, s, ka, kb)`; shifts are logical and sums wrap (R101, R103). -/
def mixF (x s ka kb : Word) : Word := ((x <<< 4) + ka) ^^^ (x + s) ^^^ ((x >>> 5) + kb)

/-- One encrypt round: the sum first, then v0 with (k0, k1), then v1 with (k2, k3) and the new v0 (R104, R105). -/
def encryptRound (k : Key) (h : Halves) : Halves :=
  let sum := h.sum + delta
  let v0 := h.v0 + mixF h.v1 sum k.k0 k.k1
  let v1 := h.v1 + mixF v0 sum k.k2 k.k3
  ⟨v0, v1, sum⟩

/-- One decrypt round: v1 first, then v0 with the new v1, both with the current sum, then the sum (R107). -/
def decryptRound (k : Key) (h : Halves) : Halves :=
  let v1 := h.v1 - mixF h.v0 h.sum k.k2 k.k3
  let v0 := h.v0 - mixF v1 h.sum k.k0 k.k1
  ⟨v0, v1, h.sum - delta⟩

/-- The round of a direction (R128). -/
def cipherRound : Direction → Key → Halves → Halves
  | .encrypt => encryptRound
  | .decrypt => decryptRound

/-- `n` rounds in sequence. -/
def cipherRounds (d : Direction) (k : Key) (n : Nat) (h : Halves) : Halves := (cipherRound d k)^[n] h

/-- The sum an operation starts from: 0, or `DELTA * rounds` mod 2^32 (R106, R108, R124). -/
def startSum (d : Direction) (rounds : Word) : Word :=
  match d with
  | .encrypt => 0x00000000#32
  | .decrypt => delta * rounds

/-- The block function of a direction. The functions have no meaning at `rounds` = 0 (R113: "A model must not give
`rounds` = 0 the identity as its meaning"), so there it answers none. -/
def cipherBlock (d : Direction) (block : Word × Word) (k : Key) (rounds : Word) : Option (Word × Word) :=
  if rounds = 0#32 then none
  else
    let h := cipherRounds d k rounds.toNat ⟨block.1, block.2, startSum d rounds⟩
    some (h.v0, h.v1)

/-- `encrypt_block` (R106). -/
def encryptBlock (block : Word × Word) (k : Key) (rounds : Word) : Option (Word × Word) :=
  cipherBlock .encrypt block k rounds

/-- `decrypt_block` (R108). -/
def decryptBlock (block : Word × Word) (k : Key) (rounds : Word) : Option (Word × Word) :=
  cipherBlock .decrypt block k rounds

end Sys2Proof.Machine
end

