-- ==== Sys2Proof/Config.lean ====
section
/-! DEFINITION. What the spec leaves open: the parameter BUFFER_BYTE_ORDER (an argument wherever it matters), the schedule
of the two agents and the power-on contents (free values, with no body), and the host-visible constants of R150. -/

namespace Sys2Proof

/-- `BUFFER_BYTE_ORDER`, the OPEN parameter of R5 and R152. Every definition that depends on it takes it as an argument. -/
inductive ByteOrder where
  | big
  | little
  deriving DecidableEq, Repr

/-- `BLOCK_LEN`, in bytes (R150). -/
abbrev Config.blockLen : Nat := 8

/-- `KEY_LEN`, in bytes (R150). -/
abbrev Config.keyLen : Nat := 16

/-- FREE VALUE (log entry 1). The k-th engine step of the instance at `base` is taken after `hostTurns base k` host steps
with BUSY = 1. The base address identifies the instance (R186), and nothing relates the schedules of two. R9 fixes no
schedule ("Agents are scheduled in any order"); R134 asks only that the engine moves after finitely many. -/
opaque Config.hostTurns : (base k : Nat) → Nat

/-- FREE VALUE (log entry 3). The contents, before the first reset, of the register numbered k in the `powerOnBlock` of
the instance at `base`
(R202: "unspecified. A model draws each value freely, under no law"). -/
opaque Config.powerOnWord : (base k : Nat) → Word

end Sys2Proof
end

