-- ==== Sys2Proof/Machine/State.lean ====
section
/-! DEFINITION. The state of one TEA-CORE instance (R20 to R38), of its host agent (R42) and of the model's schedule, and
the state right after reset (R200). Plain data throughout. -/

namespace Sys2Proof.Machine

/-- `STATUS` by its fields (R24). Bit 3 and bits 31:8 are reserved and read 0 at all times (R29), so they have no storage. -/
structure Status where
  /-- bit 0 (R25) -/
  busy : Bool
  /-- bit 1 (R26) -/
  done : Bool
  /-- bit 2 (R27) -/
  ovr  : Bool
  /-- bits 7:4 (R28) -/
  err  : BitVec 4
  deriving DecidableEq, Repr

/-- The internal working state (R20 (b), R33 to R37). -/
structure Working where
  w0   : Word
  w1   : Word
  sum  : Word
  cnt  : Word
  dirL : Direction
  kl0  : Word
  kl1  : Word
  kl2  : Word
  kl3  : Word
  deriving DecidableEq, Repr

/-- The state of the block (R20). CTRL has no storage (R23). -/
structure Block where
  status : Status
  rounds : Word
  key0   : Word
  key1   : Word
  key2   : Word
  key3   : Word
  data0  : Word
  data1  : Word
  work   : Working
  deriving DecidableEq, Repr

/-- The four fields of a host bus transaction (R53). -/
structure Transaction where
  we    : Bool
  size  : Size
  addr  : Addr
  wdata : Word
  deriving DecidableEq, Repr

/-- The two fields of a transaction's response (R53). -/
structure Response where
  rdata : Word
  berr  : Bool
  deriving DecidableEq, Repr

/-- The kind of a logged transaction: R or W (R42, R135). -/
inductive TransactionKind where
  | read
  | write
  deriving DecidableEq, Repr

/-- One entry of the host's transaction log: (kind, register, read value, bus-error flag) (R42). The register is the
offset of the transaction, which a raw operand `@0xNN` gives too. -/
structure LogEntry where
  kind  : TransactionKind
  addr  : Addr
  value : Word
  berr  : Bool
  deriving DecidableEq, Repr

/-- The basic statements of a host program (R88), in the form the host agent runs. -/
inductive Stmt where
  /-- WR, WRS, RD and RDS as the BUS listing of their transaction (R82), with the result variable a RD may name; or a
  write of a CMD word to CTRL, held as that CMD word. -/
  | transact (word : Encoded) (dst : Option Var)
  /-- `POLL reg, mask, value` -/
  | poll (addr : Addr) (mask value : Word)
  /-- `RESET` -/
  | reset
  deriving DecidableEq, Repr

/-- The two agents that take steps (R9). -/
inductive Agent where
  | host
  | engine
  deriving DecidableEq, Repr

/-- The machine: the block, its host agent, and the schedule. -/
structure State where
  /-- `BASE`, the platform's parameter (R5, R51): the base address, which identifies the instance (R186; log entry 10) -/
  base    : Nat
  /-- the block (R20) -/
  block   : Block
  /-- the host program (R42) -/
  program : List Stmt
  /-- the host program counter: the index of the next statement (R42) -/
  hpc     : Nat
  /-- the host's transaction log, in order (R42) -/
  log     : List LogEntry
  /-- the result variables that hold a value, by rising number (R42; canonical form `Vars.wf`) -/
  vars    : List (Var × Word)
  /-- THE MODEL'S OWN (log entry 1): host steps left before the engine's next step; none: not drawn yet -/
  gap     : Option Nat
  /-- THE MODEL'S OWN (log entry 1): how many gaps have been drawn and used up -/
  draws   : Nat
  deriving DecidableEq, Repr

/-- Why the machine has no further step. -/
inductive Fault where
  /-- Answered by `step` alone, when the host is halted and BUSY = 0: the END OF A RUN of R136, no error. SAFE: there is
  no further step of the hardware that a claim could be about. -/
  | runEnded
  deriving DecidableEq, Repr

/-- Why an instruction has no meaning. -/
inductive Refusal where
  /-- Answered by `exec`'s arm of an instruction that has no meaning yet: SAFE. No arm of this model answers it. -/
  | notModelled (mnemonic : String)
  deriving DecidableEq, Repr

/-- The block right after reset: every value is the one R200 gives. -/
def Block.reset : Block where
  status := { busy := false, done := false, ovr := false, err := 0#4 }
  rounds := 0x00000020#32
  key0 := 0#32
  key1 := 0#32
  key2 := 0#32
  key3 := 0#32
  data0 := 0#32
  data1 := 0#32
  work :=
    { w0 := 0#32, w1 := 0#32, sum := 0#32, cnt := 0#32, dirL := .encrypt,
      kl0 := 0#32, kl1 := 0#32, kl2 := 0#32, kl3 := 0#32 }

/-- The machine right after reset: the block of R200, a host with `hpc` = 0 (R42) and, as DESIGN CHOICE (log entries 1, 2,
10), no program loaded, an empty log, no variable assigned, no gap drawn and `BASE` 0. -/
def State.reset : State where
  base := 0
  block := Block.reset
  program := []
  hpc := 0
  log := []
  vars := []
  gap := none
  draws := 0

end Sys2Proof.Machine
end

