-- ==== Sys2Proof/Machine/Flags.lean ====
section
/-! DEFINITION. Every flag computation of the spec: the STATUS word a host reads (R24, R29) and the five ways STATUS
changes (R120, R124, R125, R126, R127, R131). TEA-CORE has no other flags (R40). -/

namespace Sys2Proof.Machine

/-- The error codes of `STATUS.ERR` (R28, R171). -/
def errNone : BitVec 4 := 0#4

/-- `STATUS.ERR` = 1 (R28, R171). -/
def errInvalidIterationCount : BitVec 4 := 1#4

/-- `STATUS.ERR` = 2 (R28, R171). -/
def errIllegalCommand : BitVec 4 := 2#4

/-- `STATUS` as one word: ERR at 7:4, OVR at bit 2, DONE at bit 1, BUSY at bit 0, every other bit 0 (R24, R29). -/
def statusWord (st : Status) : Word :=
  st.err.setWidth 32 <<< 4 ||| (BitVec.ofBool st.ovr).setWidth 32 <<< 2 |||
    (BitVec.ofBool st.done).setWidth 32 <<< 1 ||| (BitVec.ofBool st.busy).setWidth 32

/-- A START while BUSY is 1 sets OVR and nothing else (R125). -/
def statusOverrun (st : Status) : Status := { st with ovr := true }

/-- Every START taken while BUSY is 0 first clears OVR and DONE (R120). -/
def statusTaken (st : Status) : Status := { st with ovr := false, done := false }

/-- `raise CmdError(code)`: writes the code into ERR (R8, R120). -/
def statusCmdError (code : BitVec 4) (st : Status) : Status := { st with err := code }

/-- An accepted start clears ERR and sets BUSY (R124). -/
def statusStarted (st : Status) : Status := { st with err := errNone, busy := true }

/-- Completion clears BUSY and sets DONE (R131). -/
def statusCompleted (st : Status) : Status := { st with busy := false, done := true }

end Sys2Proof.Machine
end

