-- ==== Sys2Proof/Machine/Ops.lean ====
section
/-! DEFINITION. The named operations over registers, working state, log and result variables: reading a register (R55),
storing to one (R56), the report of a rejected command (R120; TEA-CORE takes no traps, R170, R177), reset (R200), and
the power-on state (R202). -/

namespace Sys2Proof.Machine

/-- Strictly rising variable numbers: the one canonical form of the result variables. -/
abbrev Vars.wf (l : List (Var × Word)) : Prop := l.Pairwise (fun p q => p.1 < q.1)

/-- The value a result variable holds, none while nothing was read into it. -/
def Vars.get : List (Var × Word) → Var → Option Word
  | [], _ => none
  | (y, w) :: l, x => if x = y then some w else Vars.get l x

/-- `x <- v` (R135). -/
def Vars.set : List (Var × Word) → Var → Word → List (Var × Word)
  | [], x, v => [(x, v)]
  | (y, w) :: l, x, v =>
    if x < y then (x, v) :: (y, w) :: l
    else if x = y then (x, v) :: l
    else (y, w) :: Vars.set l x v

/-- Replaces the block, leaving the host and the schedule. -/
def State.setBlock (s : State) (b : Block) : State := { s with block := b }

/-- `log += entry` (R135). -/
def State.record (s : State) (e : LogEntry) : State := { s with log := s.log ++ [e] }

/-- `x <- v` for a result variable (R135). -/
def State.setVar (s : State) (x : Var) (v : Word) : State := { s with vars := Vars.set s.vars x v }

/-- `hpc <- hpc + 1` (R135). -/
def State.nextStmt (s : State) : State := { s with hpc := s.hpc + 1 }

/-- The read value of the last transaction logged (R42: 0 for a write). -/
def State.lastRead (s : State) : Word :=
  match s.log.getLast? with
  | some e => e.value
  | none => 0#32

/-- The value a read transaction returns for a mapped register (R55). CTRL reads as 0 (R23). -/
def readReg (r : Reg) (b : Block) : Word :=
  match r with
  | .ctrl => 0x00000000#32
  | .status => statusWord b.status
  | .rounds => b.rounds
  | .key0 => b.key0
  | .key1 => b.key1
  | .key2 => b.key2
  | .key3 => b.key3
  | .data0 => b.data0
  | .data1 => b.data1

/-- `reg[NAME] <- v` for the registers with storage that a host writes (R56). CTRL has no storage (R23), and STATUS takes
no host write (R24), so neither is changed by it. -/
def storeReg (r : Reg) (v : Word) (b : Block) : Block :=
  match r with
  | .ctrl => b
  | .status => b
  | .rounds => { b with rounds := v }
  | .key0 => { b with key0 := v }
  | .key1 => { b with key1 := v }
  | .key2 => { b with key2 := v }
  | .key3 => { b with key3 := v }
  | .data0 => { b with data0 := v }
  | .data1 => { b with data1 := v }

/-- `reg[STATUS] <- …` for the block's own writes of its flags. -/
def Block.setStatus (b : Block) (st : Status) : Block := { b with status := st }

/-- `raise CmdError(code)` of R8, the one shared operation by which a command is rejected: it writes the code into ERR
and ends the command. TEA-CORE has no trap entry, saved registers or vector (R177), so nothing else belongs to it. -/
def raiseCmdError (code : BitVec 4) (b : Block) : Block := b.setStatus (statusCmdError code b.status)

/-- `raise BusError()` of R8: the response `RDATA` = 0, `BERR` = 1 (R54). It has no other effect. -/
def busErrorResponse : Response := ⟨0x00000000#32, true⟩

/-- `reset()`: every piece of the block's state takes its reset value (R200), whatever ran before (R201). -/
def resetBlock (_ : Block) : Block := Block.reset

/-- The latched key `KL0` to `KL3` (R37). -/
def Block.latchedKey (b : Block) : Key := ⟨b.work.kl0, b.work.kl1, b.work.kl2, b.work.kl3⟩

/-- The key registers `KEY0` to `KEY3` (R31). -/
def Block.keyRegs (b : Block) : Key := ⟨b.key0, b.key1, b.key2, b.key3⟩

/-- The running halves `W0`, `W1` and `SUM` (R33, R34). -/
def Block.running (b : Block) : Halves := ⟨b.work.w0, b.work.w1, b.work.sum⟩

/-- STATUS fields as an unconstrained word gives them, by the layout of R24. -/
def statusOfWord (w : Word) : Status where
  busy := w.getLsbD 0
  done := w.getLsbD 1
  ovr := w.getLsbD 2
  err := w.extractLsb' 4 4

/-- The block of the instance at `base` before its first reset: every value is free (R202, U6; log entry 3). -/
def powerOnBlock (base : Nat) : Block :=
  let w := Config.powerOnWord base
  { status := statusOfWord (w 0)
    rounds := w 1
    key0 := w 2
    key1 := w 3
    key2 := w 4
    key3 := w 5
    data0 := w 6
    data1 := w 7
    work :=
      { w0 := w 8, w1 := w 9, sum := w 10,
        cnt := w 11,
        dirL := if (w 12).getLsbD 0 then .decrypt else .encrypt,
        kl0 := w 13, kl1 := w 14, kl2 := w 15,
        kl3 := w 16 } }

/-- The machine at `base` at power-on with a host program to run (R202): as after reset, but for the block. -/
def powerOnState (base : Nat) (program : List Stmt) : State :=
  { State.reset with base := base, block := powerOnBlock base, program := program }

end Sys2Proof.Machine
end

