-- ==== Sys2Proof/Machine/Command.lean ====
section
/-! DEFINITION. A command written to CTRL: the accepted start (R124) and the whole of `command(v)` (R120). -/

namespace Sys2Proof.Machine

/-- `start(d)`: latches every operand and sets BUSY (R124). -/
def startOperation (d : Direction) (b : Block) : Block :=
  { b with
    work :=
      { w0 := b.data0, w1 := b.data1, sum := startSum d b.rounds, cnt := b.rounds, dirL := d,
        kl0 := b.key0, kl1 := b.key1, kl2 := b.key2, kl3 := b.key3 }
    status := statusStarted b.status }

/-- A START taken while BUSY is 0, with OVR and DONE cleared already: the reserved bits, then the iteration count,
then the start (R120). -/
def takeStart (v : Word) (b : Block) : Block :=
  if cmdRsvd v ≠ 0#30 then raiseCmdError errIllegalCommand b
  else if b.rounds = 0#32 then raiseCmdError errInvalidIterationCount b
  else startOperation (cmdDirection v) b

/-- `command(v)`: START, then BUSY, then the reserved bits, then the iteration count (R120). -/
def command (v : Word) (b : Block) : Block :=
  if cmdStart v = false then b
  else if b.status.busy then b.setStatus (statusOverrun b.status)
  else takeStart v (b.setStatus (statusTaken b.status))

end Sys2Proof.Machine
end

