-- ==== Sys2Proof/Machine/Operands.lean ====
section
/-! DEFINITION. The operands of a bus transaction: the register map (R51), acceptance and its four named causes of
refusal (R54, R173), the condition of POLL (R135), and the host address of an offset (R51, R83). -/

namespace Sys2Proof.Machine

/-- `off(reg)`: the byte offset of a register (R51). -/
def regOffset : Reg → Addr
  | .ctrl => 0x00#6
  | .status => 0x04#6
  | .rounds => 0x08#6
  | .key0 => 0x0C#6
  | .key1 => 0x10#6
  | .key2 => 0x14#6
  | .key3 => 0x18#6
  | .data0 => 0x1C#6
  | .data1 => 0x20#6

/-- The register at a byte offset, if one is mapped there (R51). -/
def regAt (a : Addr) : Option Reg :=
  match a.toNat with
  | 0x00 => some .ctrl
  | 0x04 => some .status
  | 0x08 => some .rounds
  | 0x0C => some .key0
  | 0x10 => some .key1
  | 0x14 => some .key2
  | 0x18 => some .key3
  | 0x1C => some .data0
  | 0x20 => some .data1
  | _ => none

/-- The causes of a bus error, which the hardware's response does not tell apart (R173). -/
inductive BusErrorCause where
  | beSize
  | beMisaligned
  | beUnmapped
  | beReadonly
  deriving DecidableEq, Repr

/-- The first of the four conditions of R54, in the order listed there, that a transaction breaks. -/
def busErrorCause (t : Transaction) : Option BusErrorCause :=
  if t.size ≠ .bytes4 then some .beSize
  else if t.addr.extractLsb' 0 2 ≠ 0b00#2 then some .beMisaligned
  else if ¬ t.addr ≤ 0x20#6 then some .beUnmapped
  else if t.we = true ∧ t.addr = 0x04#6 then some .beReadonly
  else none

/-- `accept(t)` of R54. -/
def accept (t : Transaction) : Bool := (busErrorCause t).isNone

/-- The transaction of a RD or RDS (R55). -/
def readTransaction (size : Size) (addr : Addr) (wdata : Word) : Transaction := ⟨false, size, addr, wdata⟩

/-- The transaction of a WR or WRS (R56). -/
def writeTransaction (size : Size) (addr : Addr) (wdata : Word) : Transaction := ⟨true, size, addr, wdata⟩

/-- The condition under which POLL goes on: `(RDATA & mask) == value` (R135). -/
def pollHolds (rdata mask value : Word) : Bool := rdata &&& mask == value

/-- `BASE + off`: the host address of an offset, ADDR zero-extended (R51, R83). `BASE` is the platform's. -/
def hostAddress (base : Nat) (off : Addr) : Nat := base + off.toNat

/-- The offset a host address reaches in the instance at `base`, if it lies in its 64 bytes (R50, R51). -/
def offsetOfHostAddress (base a : Nat) : Option Addr :=
  if base ≤ a ∧ a < base + 64 then some (BitVec.ofNat 6 (a - base)) else none

end Sys2Proof.Machine
end

