-- ==== Sys2Proof/Machine/Bus.lean ====
section
/-! DEFINITION. Bus transactions (R53 to R56): the block's answer to one, the host's step that makes one, and the
meanings of RD and WR. -/

namespace Sys2Proof.Machine

/-- What an accepted write does to the block: a write to CTRL is a command, any other stores (R56). -/
def writeReg (r : Reg) (v : Word) (b : Block) : Block :=
  match r with
  | .ctrl => command v b
  | _ => storeReg r v b

/-- The response to a transaction, and the block after it (R54, R55, R56). A bus error changes nothing. -/
def transact (t : Transaction) (b : Block) : Response × Block :=
  match busErrorCause t, regAt t.addr with
  | none, some r =>
    if t.we then (⟨0x00000000#32, false⟩, writeReg r t.wdata b)
    else (⟨readReg r b, false⟩, b)
  | _, _ => (busErrorResponse, b)

/-- The log entry of a transaction and its response: the read value is 0 for a write (R42, R135). -/
def logEntry (t : Transaction) (r : Response) : LogEntry where
  kind := if t.we then .write else .read
  addr := t.addr
  value := r.rdata
  berr := r.berr

/-- One host transaction, as one atomic step: the block answers, the host logs (R59, R135). -/
def hostTransact (t : Transaction) (s : State) : State :=
  (s.setBlock (transact t s.block).2).record (logEntry t (transact t s.block).1)

/-- RD: a read transaction (R55). -/
def execRd (size : Size) (addr : Addr) (wdata : Word) (s : State) : Host.Outcome State Fault Refusal :=
  .next (hostTransact (readTransaction size addr wdata) s)

/-- WR: a write transaction (R56). -/
def execWr (size : Size) (addr : Addr) (wdata : Word) (s : State) : Host.Outcome State Fault Refusal :=
  .next (hostTransact (writeTransaction size addr wdata) s)

end Sys2Proof.Machine
end

