-- ==== Sys2Proof/Machine/Commands.lean ====
section
/-! DEFINITION. The meanings of the CMD rows: NOP, ENCRYPT and DECRYPT (R121, R122, R123). A CMD word is the WDATA of an
accepted write to CTRL (R80, R87), and its command runs in that write's host step (R120). -/

namespace Sys2Proof.Machine

/-- The accepted write of a CMD word to CTRL: `WR CTRL, v` (R56, R120). -/
def writeCommand (v : Word) (s : State) : State :=
  hostTransact (writeTransaction .bytes4 (regOffset .ctrl) v) s

/-- NOP: `command(v)` with START = 0 (R121). -/
def execNop (dir : BitVec 1) (rsvd : BitVec 30) (s : State) : Host.Outcome State Fault Refusal :=
  .next (writeCommand (cmdWord rsvd dir 0#1) s)

/-- ENCRYPT: `command(0x00000001)` (R122). The rounds themselves are the engine's steps (R129). -/
def execEncrypt (s : State) : Host.Outcome State Fault Refusal :=
  .next (writeCommand 0x00000001#32 s)

/-- DECRYPT: `command(0x00000003)` (R123). The rounds themselves are the engine's steps (R130). -/
def execDecrypt (s : State) : Host.Outcome State Fault Refusal :=
  .next (writeCommand 0x00000003#32 s)

end Sys2Proof.Machine
end

