-- ==== Sys2Proof/Machine/Dispatch.lean ====
section
/-! DEFINITION. One arm for each constructor of Instr. -/

namespace Sys2Proof.Machine

def exec (i : Instr) (s : State) : Host.Outcome State Fault Refusal :=
  match i with
  | .nop dir rsvd => Sys2Proof.Machine.execNop dir rsvd s
  | .encrypt => Sys2Proof.Machine.execEncrypt s
  | .decrypt => Sys2Proof.Machine.execDecrypt s
  | .rd size addr wdata => Sys2Proof.Machine.execRd size addr wdata s
  | .wr size addr wdata => Sys2Proof.Machine.execWr size addr wdata s

end Sys2Proof.Machine
end

