-- ==== Sys2Proof/Machine/Engine.lean ====
section
/-! DEFINITION. The engine: one round per step (R128 to R130), completion (R131), the result a running operation is bound
for (R132), and the collapsed engine (R133). -/

namespace Sys2Proof.Machine

/-- Writes the running values after a round, or after all of them. -/
def Block.setRunning (b : Block) (h : Halves) (cnt : Word) : Block :=
  { b with work := { b.work with w0 := h.v0, w1 := h.v1, sum := h.sum, cnt := cnt } }

/-- `complete()` (R131). -/
def complete (b : Block) : Block :=
  { b with data0 := b.work.w0, data1 := b.work.w1, status := statusCompleted b.status }

/-- One engine step: one round in the latched direction with the latched key, and completion in the step that brings CNT
to 0 (R128, R129, R130). -/
def engineStep (b : Block) : Block :=
  let cnt := b.work.cnt - 1#32
  let b' := b.setRunning (cipherRound b.work.dirL b.latchedKey b.running) cnt
  if cnt = 0#32 then complete b' else b'

/-- The running values when CNT more rounds are done. -/
def remainingRounds (b : Block) : Halves :=
  cipherRounds b.work.dirL b.latchedKey b.work.cnt.toNat b.running

/-- The block a running operation is bound to write into DATA0 and DATA1 (R132); none while BUSY is 0. -/
def pendingResult (b : Block) : Option (Word × Word) :=
  if b.status.busy then some ((remainingRounds b).v0, (remainingRounds b).v1) else none

/-- The collapsed engine of R133: the whole operation in one step. -/
def collapsedStep (b : Block) : Block := complete (b.setRunning (remainingRounds b) 0#32)

end Sys2Proof.Machine
end

