-- ==== Sys2Proof/Machine/HostAgent.lean ====
section
/-! DEFINITION. The two agents' turns (R9): which agent moves, the host's statements (R135), the engine's turn (R128), and
placing a statement where the host fetches its next one. -/

namespace Sys2Proof.Machine

/-- The statement the host fetches: `prog[hpc]` (R135). -/
def fetch (s : State) : Option Stmt := s.program[s.hpc]?

/-- The host is halted when no statement is left (R136). -/
def hostHalted (s : State) : Bool := (fetch s).isNone

/-- How many host steps stand before the engine's next one: the gap in the state, or the free value where none is drawn
yet. DESIGN CHOICE (log entry 1): each instance draws from a sequence of its own, by its base address. -/
def currentGap (s : State) : Nat :=
  match s.gap with
  | some n => n
  | none => Config.hostTurns s.base s.draws

/-- The agent that takes the next step. The engine has one exactly when BUSY = 1 (R128). It takes it when the gap is used
up, and when the host is halted (R136: "the engine keeps stepping"). -/
def nextAgent (s : State) : Agent :=
  if s.block.status.busy && (hostHalted s || currentGap s == 0) then .engine else .host

/-- A host step while BUSY = 1 uses up one of the gap. -/
def takeHostTurn (s : State) : State :=
  if s.block.status.busy then { s with gap := some (currentGap s - 1) } else s

/-- The engine's step (R128), after which the next gap is open. -/
def engineTurn (s : State) : State :=
  { s with block := engineStep s.block, gap := none, draws := s.draws + 1 }

/-- What follows a statement's transaction: `x <- RDATA` if a variable is named, and `hpc <- hpc + 1` (R135). -/
def endTransact (dst : Option Var) (s : State) : State :=
  match dst with
  | none => s.nextStmt
  | some x => (s.setVar x s.lastRead).nextStmt

/-- A WR, WRS, RD or RDS statement: its transaction's instruction, then the end of the statement (R135). -/
def transactTurn (i : Instr) (dst : Option Var) (s : State) : Host.Outcome State Fault Refusal :=
  match exec i s with
  | .next t => .next (endTransact dst t)
  | .fault f => .fault f
  | .refused r => .refused r

/-- A word that decodes to no instruction. Only an illegal CMD word does not, and the write that carries it runs
`command(v)` like any other (R85, R120, R126). -/
def illegalTurn (word : Encoded) (dst : Option Var) (s : State) : State :=
  match word with
  | .cmd w => endTransact dst (writeCommand w s)
  | .bus _ => s

/-- `POLL reg, m, c`: one read; the next statement if `(RDATA & m) == c`, else this one again (R135). -/
def pollTurn (addr : Addr) (mask value : Word) (s : State) : State :=
  let t := hostTransact (readTransaction .bytes4 addr 0#32) s
  if pollHolds t.lastRead mask value then t.nextStmt else t

/-- `RESET` (R135, R200). -/
def resetTurn (s : State) : State := (s.setBlock (resetBlock s.block)).nextStmt

/-- One host step: the fetched statement (R135). With none left, and no engine step, the run has ended (R136). -/
def hostTurn (s : State) : Host.Outcome State Fault Refusal :=
  match fetch s with
  | none => .fault .runEnded
  | some (.transact word dst) =>
    match decode word with
    | .ok i => transactTurn i dst (takeHostTurn s)
    | .error _ => .next (illegalTurn word dst (takeHostTurn s))
  | some (.poll addr mask value) => .next (pollTurn addr mask value (takeHostTurn s))
  | some .reset => .next (resetTurn (takeHostTurn s))

/-- Puts a statement at index `k`, with NOP writes below it where the program is shorter than that. -/
def placeStmt (st : Stmt) : Nat → List Stmt → List Stmt
  | 0, [] => [st]
  | 0, _ :: l => st :: l
  | k + 1, [] => .transact (.cmd 0#32) none :: placeStmt st k []
  | k + 1, x :: l => x :: placeStmt st k l

/-- `st` is the host's next statement, and the host moves next (log entry 2): while BUSY = 1 that takes an open gap. -/
def placeNext (st : Stmt) (s : State) : State :=
  { s with
    program := placeStmt st s.hpc s.program
    gap := if s.block.status.busy then some 1 else s.gap }

end Sys2Proof.Machine
end

