-- ==== Sys2Proof/Machine/Step.lean ====
section
/-! DEFINITION. One step of the system: exactly one of the two agents moves (R9). -/

namespace Sys2Proof.Machine

/-- One step (R9). -/
def step (s : State) : Host.Outcome State Fault Refusal :=
  match nextAgent s with
  | .engine => .next (engineTurn s)
  | .host => hostTurn s

/-- The word `w` of `nbits` bits as the statement the very next step fetches and runs. A word that is no encoding of
either format changes nothing. -/
def State.withFetchWord (s : State) (nbits w : Nat) : State :=
  match encodedOfTable nbits w with
  | .ok e => placeNext (.transact e none) s
  | .error _ => s

end Sys2Proof.Machine
end

