-- ==== Sys2Proof/Machine/Assembly.lean ====
section
/-! DEFINITION. Host programs as they are written: the basic statements of R88, the pseudo-instructions of R89, and their
assembly into the statements the host agent runs, with the BUS listing of each transaction (R82). -/

namespace Sys2Proof.Machine

/-- A register operand: a name, or a raw offset `@0xNN` (R88). -/
inductive RegOperand where
  | named (r : Reg)
  | raw (off : Addr)
  deriving DecidableEq, Repr

/-- The statements of R88, then the pseudo-instructions of R89. -/
inductive Source where
  | wr (reg : RegOperand) (value : Word)
  | rd (reg : RegOperand) (dst : Option Var)
  | wrs (size : Size) (reg : RegOperand) (value : Word)
  | rds (size : Size) (reg : RegOperand)
  | poll (reg : RegOperand) (mask value : Word)
  | reset
  | enc
  | dec
  | nop
  | wait
  | setkey (a b c d : Word)
  | load (a b : Word)
  | setrounds (n : Word)
  | result (x y : Var)
  | check (s : Var)
  deriving DecidableEq, Repr

/-- WRS and RDS take a size of 1, 2 or 4 bytes (R88), so no statement can write down `SIZE` = `11`. -/
def Source.wf : Source → Bool
  | .wrs size _ _ => size != .reserved
  | .rds size _ => size != .reserved
  | _ => true

/-- The offset an operand stands for (R51, R88). -/
def operandOffset : RegOperand → Addr
  | .named r => regOffset r
  | .raw off => off

/-- A write transaction of a size, as its listing (R82, R88). -/
def writeStmt (size : Size) (reg : RegOperand) (value : Word) : Stmt :=
  .transact (encode (.wr size (operandOffset reg) value)) none

/-- A read transaction of a size, as its listing, with the variable its value goes to (R82, R88). -/
def readStmt (size : Size) (reg : RegOperand) (dst : Option Var) : Stmt :=
  .transact (encode (.rd size (operandOffset reg) 0#32)) dst

/-- `WR <reg>, <value>` for a named register. -/
def wrNamed (r : Reg) (value : Word) : Stmt := writeStmt .bytes4 (.named r) value

/-- `RD <reg> -> <var>` for a named register. -/
def rdNamed (r : Reg) (x : Var) : Stmt := readStmt .bytes4 (.named r) (some x)

/-- One written statement as basic statements: R88's as they stand, R89's by their expansion. -/
def assembleStmt : Source → List Stmt
  | .wr reg value => [writeStmt .bytes4 reg value]
  | .rd reg dst => [readStmt .bytes4 reg dst]
  | .wrs size reg value => [writeStmt size reg value]
  | .rds size reg => [readStmt size reg none]
  | .poll reg mask value => [.poll (operandOffset reg) mask value]
  | .reset => [.reset]
  | .enc => [wrNamed .ctrl 0x00000001#32]
  | .dec => [wrNamed .ctrl 0x00000003#32]
  | .nop => [wrNamed .ctrl 0x00000000#32]
  | .wait => [.poll (regOffset .status) 0x00000001#32 0x00000000#32]
  | .setkey a b c d => [wrNamed .key0 a, wrNamed .key1 b, wrNamed .key2 c, wrNamed .key3 d]
  | .load a b => [wrNamed .data0 a, wrNamed .data1 b]
  | .setrounds n => [wrNamed .rounds n]
  | .result x y => [rdNamed .data0 x, rdNamed .data1 y]
  | .check s => [rdNamed .status s]

/-- A whole host program (R88). -/
def assemble (program : List Source) : List Stmt := program.flatMap assembleStmt

end Sys2Proof.Machine
end

