-- ==== Sys2Proof/Machine/Buffer.lean ====
section
/-! DEFINITION. The buffer operations, the contract on the host that drives the block (spec/42_buffer_operations.md):
packing (R152, R153), encrypt_buffer and decrypt_buffer (R154 to R159), and one realisation on an instance (R160). -/

namespace Sys2Proof.Machine

/-- The errors a buffer operation returns (R158). -/
inductive BufferError where
  | invalidKeyLength
  | invalidBufferLength
  | invalidIterationCount
  | deviceError
  deriving DecidableEq, Repr

/-- Four bytes in buffer order as a word; each is zero-extended before it is shifted (R152). -/
def packWord (order : ByteOrder) (b0 b1 b2 b3 : Byte) : Word :=
  match order with
  | .big =>
    (b0.setWidth 32 <<< 24) ||| (b1.setWidth 32 <<< 16) ||| (b2.setWidth 32 <<< 8) ||| b3.setWidth 32
  | .little =>
    (b3.setWidth 32 <<< 24) ||| (b2.setWidth 32 <<< 16) ||| (b1.setWidth 32 <<< 8) ||| b0.setWidth 32

/-- The four bytes of a word, in buffer order (R152). -/
def unpackWord (order : ByteOrder) (w : Word) : List Byte :=
  match order with
  | .big => [w.extractLsb' 24 8, w.extractLsb' 16 8, w.extractLsb' 8 8, w.extractLsb' 0 8]
  | .little => [w.extractLsb' 0 8, w.extractLsb' 8 8, w.extractLsb' 16 8, w.extractLsb' 24 8]

/-- `word(x[i], x[i+1], x[i+2], x[i+3])` (R153). It is used only where those bytes exist. -/
def wordAt (order : ByteOrder) (x : List Byte) (i : Nat) : Word :=
  packWord order (x.getD i 0#8) (x.getD (i + 1) 0#8) (x.getD (i + 2) 0#8) (x.getD (i + 3) 0#8)

/-- The key words of a 16-byte key (R153). -/
def keyOfBytes (order : ByteOrder) (key : List Byte) : Key :=
  ⟨wordAt order key 0, wordAt order key 4, wordAt order key 8, wordAt order key 12⟩

/-- Block `j` of a buffer (R153). -/
def blockAt (order : ByteOrder) (data : List Byte) (j : Nat) : Word × Word :=
  (wordAt order data (8 * j), wordAt order data (8 * j + 4))

/-- The blocks of a buffer whose length is a multiple of 8, in order (R153). -/
def blocksOfBytes (order : ByteOrder) (data : List Byte) : List (Word × Word) :=
  (List.range (data.length / Config.blockLen)).map (blockAt order data)

/-- `bytes(v0') ++ bytes(v1')` (R153). -/
def blockBytes (order : ByteOrder) (b : Word × Word) : List Byte := unpackWord order b.1 ++ unpackWord order b.2

/-- The checks of R154, in its order: key length, buffer length, iteration count (R156, R157). -/
def validate (data key : List Byte) (rounds : Int) : Except BufferError Unit :=
  if key.length ≠ Config.keyLen then .error .invalidKeyLength
  else if data.length % Config.blockLen ≠ 0 then .error .invalidBufferLength
  else if rounds < 1 ∨ 2 ^ 32 - 1 < rounds then .error .invalidIterationCount
  else .ok ()

/-- Each block on its own, in order (R154, R161); none only if the block function has no meaning. -/
def cipherBlocks (d : Direction) (k : Key) (n : Word) : List (Word × Word) → Option (List (Word × Word))
  | [] => some []
  | b :: l =>
    match cipherBlock d b k n, cipherBlocks d k n l with
    | some c, some cs => some (c :: cs)
    | _, _ => none

/-- A buffer operation: validation before any transformation, then every block, then their bytes in order (R154, R155). -/
def bufferOperation (d : Direction) (order : ByteOrder) (data key : List Byte) (rounds : Int) :
    Except BufferError (List Byte) :=
  match validate data key rounds with
  | .error e => .error e
  | .ok _ =>
    match cipherBlocks d (keyOfBytes order key) (BitVec.ofInt 32 rounds) (blocksOfBytes order data) with
    | some out => .ok (out.flatMap (blockBytes order))
    | none => .error .invalidIterationCount

/-- `encrypt_buffer` (R154). -/
def encryptBuffer (order : ByteOrder) (data key : List Byte) (rounds : Int) : Except BufferError (List Byte) :=
  bufferOperation .encrypt order data key rounds

/-- `decrypt_buffer` (R155). -/
def decryptBuffer (order : ByteOrder) (data key : List Byte) (rounds : Int) : Except BufferError (List Byte) :=
  bufferOperation .decrypt order data key rounds

/-- The command of a direction: ENC or DEC (R89, R160). -/
def startSource : Direction → Source
  | .encrypt => .enc
  | .decrypt => .dec

/-- The statements of one block in R160, with the variables of block `j`: its STATUS in 3j, its result in 3j+1, 3j+2. -/
def blockSource (d : Direction) : Nat → List (Word × Word) → List Source
  | _, [] => []
  | j, b :: l =>
    [.load b.1 b.2, startSource d, .wait, .check (3 * j), .result (3 * j + 1) (3 * j + 2)] ++ blockSource d (j + 1) l

/-- The host program of R160 for validated operands. An empty buffer takes no transaction at all (R159; log entry 6). -/
def bufferProgram (d : Direction) (k : Key) (n : Word) (blocks : List (Word × Word)) : List Source :=
  match blocks with
  | [] => []
  | _ => [.setkey k.k0 k.k1 k.k2 k.k3, .setrounds n, .wait] ++ blockSource d 0 blocks

/-- Validation, then the program (R160). -/
def bufferProcedure (d : Direction) (order : ByteOrder) (data key : List Byte) (rounds : Int) :
    Except BufferError (List Stmt) :=
  match validate data key rounds with
  | .error e => .error e
  | .ok _ =>
    .ok (assemble (bufferProgram d (keyOfBytes order key) (BitVec.ofInt 32 rounds) (blocksOfBytes order data)))

/-- R160's test of a STATUS read: `s.ERR != 0 or s.OVR == 1 or s.DONE != 1`. -/
def statusIsBad (s : Word) : Bool := s.extractLsb' 4 4 != 0#4 || s.getLsbD 2 || !s.getLsbD 1

/-- What the host returns for `m` blocks from block `j` on, from the variables its program filled (R160). A variable that
was never filled means the run did not get there. -/
def collectBlocks (order : ByteOrder) (vars : List (Var × Word)) (j : Nat) : Nat → Except BufferError (List Byte)
  | 0 => .ok []
  | m + 1 =>
    match Vars.get vars (3 * j), Vars.get vars (3 * j + 1), Vars.get vars (3 * j + 2) with
    | some s, some c0, some c1 =>
      if statusIsBad s then .error .deviceError
      else (collectBlocks order vars (j + 1) m).map (blockBytes order (c0, c1) ++ ·)
    | _, _, _ => .error .deviceError

/-- The result of R160 after the run of its program for `m` blocks: DeviceError for any bus error among the transactions
logged since (the entries after the first `before`), else what the blocks give. -/
def bufferResult (order : ByteOrder) (m before : Nat) (t : State) : Except BufferError (List Byte) :=
  if (t.log.drop before).any (·.berr) then .error .deviceError else collectBlocks order t.vars 0 m

end Sys2Proof.Machine
end

