-- ==== Sys2Proof/Machine/System.lean ====
section
/-! DEFINITION. A system of independent TEA-CORE instances, each with its own state, base address and host (R41, R186).
`N_INSTANCES` is the length of the list, and which instance moves is an argument: the spec fixes no order. -/

namespace Sys2Proof.Machine

/-- One instance: its block, its host and its base address are all in its own state (R41, R186). -/
abbrev TeaInstance := State

/-- Any number of instances (R5 `N_INSTANCES`, R186). -/
abbrev TeaSystem := List TeaInstance

/-- At least one instance, at distinct base addresses (R5, R186: "its base address identifies it"). -/
abbrev TeaSystem.wf (sys : TeaSystem) : Prop := sys ≠ [] ∧ sys.Pairwise (fun a b => a.base ≠ b.base)

/-- Instance `k` takes one step of its own, and no other instance changes (R186). An index with no instance has no
step, like a machine whose run has ended. DESIGN CHOICE (log entries 1, 9): how the instances' steps interleave is the
argument `k` at each step, and the schedules of instances at distinct bases are free values unrelated to each other. -/
def systemStep (k : Nat) (sys : TeaSystem) : Host.Outcome TeaSystem Fault Refusal :=
  match sys[k]? with
  | none => .fault .runEnded
  | some s =>
    match step s with
    | .next t => .next (sys.set k t)
    | .fault f => .fault f
    | .refused r => .refused r

/-- The instance and offset a host address reaches: the first whose 64 bytes hold it (R51, R83). -/
def routeAddress (sys : TeaSystem) (a : Nat) : Option (Nat × Addr) :=
  match sys.findIdx? (fun s => (offsetOfHostAddress s.base a).isSome) with
  | none => none
  | some k =>
    match sys[k]? with
    | none => none
    | some s => (offsetOfHostAddress s.base a).map (fun off => (k, off))

end Sys2Proof.Machine
end

