-- ==== Sys2Proof/Safety.lean ====
section
/-! DEFINITION. What holds in every state a run can reach after reset, and the end of a run: the terms claims use. -/

namespace Sys2Proof.Machine

/-- The five invariants of R39. -/
abbrev Block.Inv (b : Block) : Prop :=
  (b.status.busy = true → b.work.cnt ≠ 0#32) ∧
  (b.status.busy = true → b.status.done = false) ∧
  (b.status.busy = false → b.work.cnt = 0#32) ∧
  (b.status.err = errNone ∨ b.status.err = errInvalidIterationCount ∨ b.status.err = errIllegalCommand) ∧
  (b.status.err ≠ errNone → b.status.busy = false ∧ b.status.done = false)

/-- The sum of a running decrypt operation is DELTA times the rounds still to do (from R109 and R124). -/
abbrev Block.SumInv (b : Block) : Prop :=
  b.status.busy = true → b.work.dirL = .decrypt → b.work.sum = delta * b.work.cnt

/-- The block's invariants, and the host's: `hpc` is an index of the program or its end (R42, R136), and the result
variables are in their canonical form. -/
abbrev State.Inv (s : State) : Prop :=
  s.block.Inv ∧ s.block.SumInv ∧ s.hpc ≤ s.program.length ∧ Vars.wf s.vars

/-- Nothing of the host but its log, and nothing of the schedule, differs: what every instruction leaves as it is. -/
abbrev State.SameButBlockAndLog (s t : State) : Prop :=
  t.program = s.program ∧ t.hpc = s.hpc ∧ t.vars = s.vars ∧ t.gap = s.gap ∧
    t.draws = s.draws ∧ t.base = s.base

/-- A run has ended when the host is halted and BUSY = 0 (R136). -/
abbrev State.runEnded (s : State) : Prop := hostHalted s = true ∧ s.block.status.busy = false

end Sys2Proof.Machine
end

