-- ==== Sys2Proof/Certificates/Slice0/Obligations.lean ====
section
/-! DEFINITION. The statements for the provers. Each docstring names the rule of spec/ it formalises. -/

open Sys2Proof Sys2Proof.Machine

/-! ### Encoding -/

/-- Decoding an encoded instruction gives it back, whatever its operands (R81, R82, R84). -/
def Obligations.DecodeAfterEncodeIsIdentity : Prop :=
  ∀ i : Instr, decode (encode i) = .ok i

/-- Encoding a decoded instruction gives back the very word, in either format: no bit is dropped (R81, R82, R84). -/
def Obligations.EncodeAfterDecodeIsIdentity : Prop :=
  ∀ (e : Encoded) (i : Instr), decode e = .ok i → encode i = e

/-- R84, the complete map: NOP by bit 0, ENCRYPT and DECRYPT by their one word each, the rest illegal; a BUS transaction
by WE, with its other fields as R82 lays them out, and accepted by the conditions of R54. -/
def Obligations.CommandAndBusDecodeMap : Prop :=
  (∀ w : Word,
    ((∃ dir rsvd, decode (.cmd w) = .ok (.nop dir rsvd)) ↔ w.getLsbD 0 = false) ∧
    (decode (.cmd w) = .ok .encrypt ↔ w = 0x00000001#32) ∧
    (decode (.cmd w) = .ok .decrypt ↔ w = 0x00000003#32) ∧
    (decode (.cmd w) = .error .illegalCommand ↔ w.getLsbD 0 = true ∧ w.extractLsb' 2 30 ≠ 0#30)) ∧
  (∀ w : BitVec 41, ∃ size : Size, size.toBits = w.extractLsb' 38 2 ∧
    decode (.bus w) =
      .ok (if w.getLsbD 40 then .wr size (w.extractLsb' 32 6) (w.extractLsb' 0 32)
        else .rd size (w.extractLsb' 32 6) (w.extractLsb' 0 32)) ∧
    (accept ⟨w.getLsbD 40, size, w.extractLsb' 32 6, w.extractLsb' 0 32⟩ = true ↔
      w.extractLsb' 38 2 = 0b10#2 ∧ w.extractLsb' 32 2 = 0b00#2 ∧ w.extractLsb' 32 6 ≤ 0x20#6 ∧
        ¬ (w.getLsbD 40 = true ∧ w.extractLsb' 32 6 = 0x04#6)))

/-- A few words written out from R81, R82 and the listings of R82 and spec/95_test_vectors.md part 2.7. The last three
clauses are the model's own reading of the opcode table's numbering, DEDUCED (log entry 16): 32 bits as a CMD word, 48 as
a 41-bit BUS listing. -/
def Obligations.SampleWordsDecode : Prop :=
  decode (.cmd 0x00000002#32) = .ok (.nop 1#1 0#30) ∧
  decode (.cmd 0x00000001#32) = .ok .encrypt ∧
  decode (.cmd 0x00000003#32) = .ok .decrypt ∧
  decode (.cmd 0x00000005#32) = .error .illegalCommand ∧
  decode (.bus 0x08400000000#41) = .ok (.rd .bytes4 0x04#6 0#32) ∧
  decode (.bus 0x1948899AABB#41) = .ok (.wr .bytes4 0x14#6 0x8899AABB#32) ∧
  decode (.bus 0x01C00000000#41) = .ok (.rd .bytes1 0x1C#6 0#32) ∧
  decode (.bus 0x14000000001#41) = .ok (.wr .bytes2 0x00#6 1#32) ∧
  decodeTableWord 32 0x00000003 = some .decrypt ∧
  decodeTableWord 48 0x18000000001 = some (.wr .bytes4 0x00#6 1#32) ∧
  decodeTableWord 32 0x80000001 = none

/-- R82: the listing of an accepted transaction has the upper part 0x080 + ADDR for a read and 0x180 + ADDR for a write,
and WDATA below it. -/
def Obligations.ListingUpperPart : Prop :=
  ∀ (addr : Addr) (v : Word),
    (∃ w, encode (.rd .bytes4 addr v) = .bus w ∧ w.toNat = (0x080 + addr.toNat) * 2 ^ 32 + v.toNat) ∧
    (∃ w, encode (.wr .bytes4 addr v) = .bus w ∧ w.toNat = (0x180 + addr.toNat) * 2 ^ 32 + v.toNat)

/-! ### Bus transactions -/

/-- R54: a transaction is accepted exactly under the four conditions. Otherwise it is a bus error: no state of the block
changes, the response is RDATA = 0 and BERR = 1 whichever condition failed, and the conditions are looked at in the
order listed. -/
def Obligations.BusAcceptanceAndBusError : Prop :=
  (∀ t : Transaction,
    accept t = true ↔
      t.size = .bytes4 ∧ t.addr.toNat % 4 = 0 ∧ t.addr.toNat ≤ 0x20 ∧ ¬ (t.we = true ∧ t.addr = 0x04#6)) ∧
  (∀ (size : Size) (addr : Addr) (v : Word) (s : State), accept ⟨false, size, addr, v⟩ = false →
    exec (.rd size addr v) s = .next { s with log := s.log ++ [⟨.read, addr, 0x00000000#32, true⟩] }) ∧
  (∀ (size : Size) (addr : Addr) (v : Word) (s : State), accept ⟨true, size, addr, v⟩ = false →
    exec (.wr size addr v) s = .next { s with log := s.log ++ [⟨.write, addr, 0x00000000#32, true⟩] }) ∧
  (∀ t : Transaction,
    (t.size ≠ .bytes4 → busErrorCause t = some .beSize) ∧
    (t.size = .bytes4 → t.addr.toNat % 4 ≠ 0 → busErrorCause t = some .beMisaligned) ∧
    (t.size = .bytes4 → t.addr.toNat % 4 = 0 → 0x20 < t.addr.toNat → busErrorCause t = some .beUnmapped) ∧
    (t.size = .bytes4 → t.we = true → t.addr = 0x04#6 → busErrorCause t = some .beReadonly))

/-- R29, with the fields of R24: the layout of STATUS as a read returns it, the reserved bits 0 from every state. -/
def Obligations.StatusReadLayout : Prop :=
  ∀ (s : State) (v : Word), ∃ w : Word,
    exec (.rd .bytes4 0x04#6 v) s = .next { s with log := s.log ++ [⟨.read, 0x04#6, w, false⟩] } ∧
    w.getLsbD 0 = s.block.status.busy ∧ w.getLsbD 1 = s.block.status.done ∧ w.getLsbD 2 = s.block.status.ovr ∧
    w.getLsbD 3 = false ∧ w.extractLsb' 4 4 = s.block.status.err ∧ w.extractLsb' 8 24 = 0#24

/-- R55: an accepted read returns the register's value with BERR = 0 and changes no state but the host's log, for each
of the nine registers; a refused one is the bus error of R54. -/
def Obligations.ReadReturnsRegister : Prop :=
  ∀ (s : State) (v : Word),
    exec (.rd .bytes4 0x00#6 v) s = .next { s with log := s.log ++ [⟨.read, 0x00#6, 0x00000000#32, false⟩] } ∧
    exec (.rd .bytes4 0x04#6 v) s =
      .next { s with log := s.log ++ [⟨.read, 0x04#6, statusWord s.block.status, false⟩] } ∧
    exec (.rd .bytes4 0x08#6 v) s = .next { s with log := s.log ++ [⟨.read, 0x08#6, s.block.rounds, false⟩] } ∧
    exec (.rd .bytes4 0x0C#6 v) s = .next { s with log := s.log ++ [⟨.read, 0x0C#6, s.block.key0, false⟩] } ∧
    exec (.rd .bytes4 0x10#6 v) s = .next { s with log := s.log ++ [⟨.read, 0x10#6, s.block.key1, false⟩] } ∧
    exec (.rd .bytes4 0x14#6 v) s = .next { s with log := s.log ++ [⟨.read, 0x14#6, s.block.key2, false⟩] } ∧
    exec (.rd .bytes4 0x18#6 v) s = .next { s with log := s.log ++ [⟨.read, 0x18#6, s.block.key3, false⟩] } ∧
    exec (.rd .bytes4 0x1C#6 v) s = .next { s with log := s.log ++ [⟨.read, 0x1C#6, s.block.data0, false⟩] } ∧
    exec (.rd .bytes4 0x20#6 v) s = .next { s with log := s.log ++ [⟨.read, 0x20#6, s.block.data1, false⟩] } ∧
    (∀ (size : Size) (addr : Addr), accept ⟨false, size, addr, v⟩ = false →
      exec (.rd size addr v) s = .next { s with log := s.log ++ [⟨.read, addr, 0x00000000#32, true⟩] })

/-- R56: an accepted write stores WDATA in the register with BERR = 0 and changes nothing else but the host's log,
whether or not an operation runs; at CTRL it performs the command of R120; a refused one, a write to STATUS among
them, is the bus error of R54. -/
def Obligations.WriteStoresRegister : Prop :=
  ∀ (s : State) (v : Word),
    exec (.wr .bytes4 0x00#6 v) s =
      .next { s with block := command v s.block, log := s.log ++ [⟨.write, 0x00#6, 0x00000000#32, false⟩] } ∧
    exec (.wr .bytes4 0x04#6 v) s = .next { s with log := s.log ++ [⟨.write, 0x04#6, 0x00000000#32, true⟩] } ∧
    exec (.wr .bytes4 0x08#6 v) s =
      .next { s with block := { s.block with rounds := v }, log := s.log ++ [⟨.write, 0x08#6, 0x00000000#32, false⟩] } ∧
    exec (.wr .bytes4 0x0C#6 v) s =
      .next { s with block := { s.block with key0 := v }, log := s.log ++ [⟨.write, 0x0C#6, 0x00000000#32, false⟩] } ∧
    exec (.wr .bytes4 0x10#6 v) s =
      .next { s with block := { s.block with key1 := v }, log := s.log ++ [⟨.write, 0x10#6, 0x00000000#32, false⟩] } ∧
    exec (.wr .bytes4 0x14#6 v) s =
      .next { s with block := { s.block with key2 := v }, log := s.log ++ [⟨.write, 0x14#6, 0x00000000#32, false⟩] } ∧
    exec (.wr .bytes4 0x18#6 v) s =
      .next { s with block := { s.block with key3 := v }, log := s.log ++ [⟨.write, 0x18#6, 0x00000000#32, false⟩] } ∧
    exec (.wr .bytes4 0x1C#6 v) s =
      .next { s with block := { s.block with data0 := v }, log := s.log ++ [⟨.write, 0x1C#6, 0x00000000#32, false⟩] } ∧
    exec (.wr .bytes4 0x20#6 v) s =
      .next { s with block := { s.block with data1 := v }, log := s.log ++ [⟨.write, 0x20#6, 0x00000000#32, false⟩] } ∧
    (∀ (size : Size) (addr : Addr), accept ⟨true, size, addr, v⟩ = false →
      exec (.wr size addr v) s = .next { s with log := s.log ++ [⟨.write, addr, 0x00000000#32, true⟩] })

/-- Part of R60: no read has a side effect on the block, and reading again at once returns the same value and flag. -/
def Obligations.ReadsLeaveBlockAlone : Prop :=
  ∀ (size : Size) (addr : Addr) (v : Word) (s : State), ∃ t u : State, ∃ e : LogEntry,
    exec (.rd size addr v) s = .next t ∧ exec (.rd size addr v) t = .next u ∧
    t.block = s.block ∧ u.block = s.block ∧ t.log = s.log ++ [e] ∧ u.log = s.log ++ [e, e]

/-- Part of R60: a write anywhere but at CTRL is idempotent on the block, and one to CTRL is not: a second START while
the first runs sets OVR. -/
def Obligations.OnlyCommandWritesAreNotIdempotent : Prop :=
  (∀ (size : Size) (addr : Addr) (v : Word) (s : State), addr ≠ 0x00#6 → ∃ t u : State,
    exec (.wr size addr v) s = .next t ∧ exec (.wr size addr v) t = .next u ∧ u.block = t.block) ∧
  (∀ s : State, s.block.status.busy = false → s.block.rounds ≠ 0#32 → ∃ t u : State,
    exec (.wr .bytes4 0x00#6 0x00000001#32) s = .next t ∧ exec (.wr .bytes4 0x00#6 0x00000001#32) t = .next u ∧
    t.block.status.ovr = false ∧ u.block = { t.block with status := { t.block.status with ovr := true } })

/-! ### Commands -/

/-- Every instruction answers a next state from every state, appends one entry to the log and changes nothing else of
the host or the schedule; and what it does to the block never touches the working state or STATUS unless it is a START
written to CTRL: the frame of all five instructions (R38, R59, R135). -/
def Obligations.EveryInstructionCompletesWithFrame : Prop :=
  ∀ (i : Instr) (s : State), ∃ t : State, exec i s = .next t ∧ s.SameButBlockAndLog t ∧
    (∃ e, t.log = s.log ++ [e]) ∧
    ((∀ v, i ≠ .wr .bytes4 0x00#6 v) → i ≠ .encrypt → i ≠ .decrypt →
      t.block.work = s.block.work ∧ t.block.status = s.block.status)

/-- R121: NOP leaves the whole block as it is, whatever its ignored bits and whether or not BUSY is 1; only the write
that carries it is logged. -/
def Obligations.NopHasNoEffect : Prop :=
  ∀ (dir : BitVec 1) (rsvd : BitVec 30) (s : State),
    exec (.nop dir rsvd) s = .next { s with log := s.log ++ [⟨.write, 0x00#6, 0x00000000#32, false⟩] } ∧
    exec (.wr .bytes4 0x00#6 (cmdWord rsvd dir 0#1)) s =
      .next { s with log := s.log ++ [⟨.write, 0x00#6, 0x00000000#32, false⟩] }

/-- R124 with the clears of R120: an accepted start latches DATA, KEY, ROUNDS and the direction, loads SUM with 0 or
DELTA * ROUNDS, and sets BUSY with DONE, OVR and ERR clear. Every register keeps its value. The write of the word to
CTRL is the same step. -/
def Obligations.AcceptedStartLatchesOperands : Prop :=
  ∀ s : State, s.block.status.busy = false → s.block.rounds ≠ 0#32 →
    exec .encrypt s =
      .next { s with
        block := { s.block with
          status := { busy := true, done := false, ovr := false, err := 0#4 }
          work := { w0 := s.block.data0, w1 := s.block.data1, sum := 0x00000000#32, cnt := s.block.rounds,
                    dirL := .encrypt, kl0 := s.block.key0, kl1 := s.block.key1, kl2 := s.block.key2,
                    kl3 := s.block.key3 } }
        log := s.log ++ [⟨.write, 0x00#6, 0x00000000#32, false⟩] } ∧
    exec .decrypt s =
      .next { s with
        block := { s.block with
          status := { busy := true, done := false, ovr := false, err := 0#4 }
          work := { w0 := s.block.data0, w1 := s.block.data1, sum := 0x9E3779B9#32 * s.block.rounds,
                    cnt := s.block.rounds, dirL := .decrypt, kl0 := s.block.key0, kl1 := s.block.key1,
                    kl2 := s.block.key2, kl3 := s.block.key3 } }
        log := s.log ++ [⟨.write, 0x00#6, 0x00000000#32, false⟩] } ∧
    exec (.wr .bytes4 0x00#6 0x00000001#32) s = exec .encrypt s ∧
    exec (.wr .bytes4 0x00#6 0x00000003#32) s = exec .decrypt s

/-- R125: a START written while BUSY is 1 sets OVR and changes nothing else of the block, whatever its DIR and RSVD. -/
def Obligations.StartWhileBusySetsOnlyOvr : Prop :=
  ∀ s : State, s.block.status.busy = true →
    let t : State := { s with
      block := { s.block with status := { s.block.status with ovr := true } }
      log := s.log ++ [⟨.write, 0x00#6, 0x00000000#32, false⟩] }
    exec .encrypt s = .next t ∧ exec .decrypt s = .next t ∧
    ∀ v : Word, v.getLsbD 0 = true → exec (.wr .bytes4 0x00#6 v) s = .next t

/-- R126: a START with a reserved bit set, written while BUSY is 0, gives ERR = 2 with DONE and OVR clear and changes
nothing else of the block, ROUNDS = 0 or not. -/
def Obligations.IllegalCommandIsRejected : Prop :=
  ∀ (s : State) (v : Word), s.block.status.busy = false → v.getLsbD 0 = true → v.extractLsb' 2 30 ≠ 0#30 →
    exec (.wr .bytes4 0x00#6 v) s =
      .next { s with
        block := { s.block with status := { busy := false, done := false, ovr := false, err := 2#4 } }
        log := s.log ++ [⟨.write, 0x00#6, 0x00000000#32, false⟩] }

/-- R127: ENCRYPT or DECRYPT written while BUSY is 0 with ROUNDS = 0 gives ERR = 1 with DONE and OVR clear and changes
nothing else of the block. -/
def Obligations.ZeroCountIsRejected : Prop :=
  ∀ s : State, s.block.status.busy = false → s.block.rounds = 0#32 →
    let t : State := { s with
      block := { s.block with status := { busy := false, done := false, ovr := false, err := 1#4 } }
      log := s.log ++ [⟨.write, 0x00#6, 0x00000000#32, false⟩] }
    exec .encrypt s = .next t ∧ exec .decrypt s = .next t ∧
    exec (.wr .bytes4 0x00#6 0x00000001#32) s = .next t ∧ exec (.wr .bytes4 0x00#6 0x00000003#32) s = .next t

/-- R80, R87 and R89: a CMD word is the WDATA of an accepted write to CTRL. Whatever CMD instruction a word decodes to,
running it is writing that word to CTRL. -/
def Obligations.CommandIsItsCtrlWrite : Prop :=
  ∀ (w : Word) (i : Instr) (s : State), decode (.cmd w) = .ok i → exec i s = exec (.wr .bytes4 0x00#6 w) s

/-- R178 with R27 and R28, over all steps: ERR changes, and OVR or DONE falls, only in a RESET or in the write of a
START to CTRL while BUSY is 0. -/
def Obligations.ReportsKeptUntilNextIdleStart : Prop :=
  ∀ s t : State, step s = .next t →
    (t.block.status.err ≠ s.block.status.err ∨ (s.block.status.ovr = true ∧ t.block.status.ovr = false) ∨
      (s.block.status.done = true ∧ t.block.status.done = false)) →
    nextAgent s = .host ∧
      (fetch s = some .reset ∨
        (s.block.status.busy = false ∧ ∃ dst v, v.getLsbD 0 = true ∧
          (fetch s = some (.transact (.cmd v) dst) ∨
            fetch s = some (.transact (encode (.wr .bytes4 0x00#6 v)) dst))))

/-! ### Reset -/

/-- R200: RESET, from every state of the block, sets every piece of it to its reset value in one step, and then ROUNDS
reads 0x20 and every other register 0. It is the state `State.reset` has. -/
def Obligations.ResetSetsEveryValue : Prop :=
  let fresh : Block :=
    { status := { busy := false, done := false, ovr := false, err := 0#4 }
      rounds := 0x00000020#32, key0 := 0#32, key1 := 0#32, key2 := 0#32, key3 := 0#32, data0 := 0#32, data1 := 0#32
      work := { w0 := 0#32, w1 := 0#32, sum := 0#32, cnt := 0#32, dirL := .encrypt,
                kl0 := 0#32, kl1 := 0#32, kl2 := 0#32, kl3 := 0#32 } }
  State.reset.block = fresh ∧
  (∀ s : State, nextAgent s = .host → fetch s = some .reset →
    ∃ t, step s = .next t ∧ t.block = fresh ∧ t.hpc = s.hpc + 1 ∧ t.program = s.program ∧ t.log = s.log ∧
      t.vars = s.vars) ∧
  (∀ (s : State) (r : Reg) (v : Word), s.block = fresh →
    exec (.rd .bytes4 (regOffset r) v) s =
      .next { s with
        log := s.log ++ [⟨.read, regOffset r, if r = .rounds then 0x00000020#32 else 0x00000000#32, false⟩] })

/-- R201 and R212, over all steps: an operation ends only by its completion, in the step that brings CNT from 1 to 0, or
by a RESET, which writes no result. -/
def Obligations.OnlyCompletionOrResetEndsOperation : Prop :=
  ∀ s t : State, step s = .next t → s.block.status.busy = true → t.block.status.busy = false →
    (nextAgent s = .engine ∧ s.block.work.cnt = 1#32 ∧ t.block.status.done = true) ∨
    (nextAgent s = .host ∧ fetch s = some .reset ∧ t.block.status.done = false ∧ t.block.data0 = 0#32 ∧
      t.block.data1 = 0#32)

/-! ### The engine -/

/-- R128, with the schedule free (R9): some schedule gives the engine the next step exactly when BUSY = 1. The engine's
step is one round of the latched direction. -/
def Obligations.EngineMovesExactlyWhenBusy : Prop :=
  (∀ s : State, (∃ g : Option Nat, nextAgent { s with gap := g } = .engine) ↔ s.block.status.busy = true) ∧
  (∀ s : State, nextAgent s = .engine → ∃ t, step s = .next t ∧
    (⟨t.block.work.w0, t.block.work.w1, t.block.work.sum⟩ : Halves) =
      (match s.block.work.dirL with
        | .encrypt => encryptRound ⟨s.block.work.kl0, s.block.work.kl1, s.block.work.kl2, s.block.work.kl3⟩
            ⟨s.block.work.w0, s.block.work.w1, s.block.work.sum⟩
        | .decrypt => decryptRound ⟨s.block.work.kl0, s.block.work.kl1, s.block.work.kl2, s.block.work.kl3⟩
            ⟨s.block.work.w0, s.block.work.w1, s.block.work.sum⟩))

/-- R129 and R131: the engine's encrypt step, and completion in the step that brings CNT to 0. Nothing else of the block
or of the host changes. -/
def Obligations.EngineEncryptStep : Prop :=
  ∀ s : State, nextAgent s = .engine → s.block.work.dirL = .encrypt →
    let k := s.block.work
    let sum := k.sum + 0x9E3779B9#32
    let w0 := k.w0 + (((k.w1 <<< 4) + k.kl0) ^^^ (k.w1 + sum) ^^^ ((k.w1 >>> 5) + k.kl1))
    let w1 := k.w1 + (((w0 <<< 4) + k.kl2) ^^^ (w0 + sum) ^^^ ((w0 >>> 5) + k.kl3))
    let work := { k with w0 := w0, w1 := w1, sum := sum, cnt := k.cnt - 1#32 }
    (k.cnt ≠ 1#32 →
      ∃ t, step s = .next t ∧ t.block = { s.block with work := work } ∧
        t.program = s.program ∧ t.hpc = s.hpc ∧ t.log = s.log ∧ t.vars = s.vars) ∧
    (k.cnt = 1#32 →
      ∃ t, step s = .next t ∧
        t.block = { s.block with
          work := work, data0 := w0, data1 := w1
          status := { s.block.status with busy := false, done := true } } ∧
        t.program = s.program ∧ t.hpc = s.hpc ∧ t.log = s.log ∧ t.vars = s.vars)

/-- R130 and R131: the engine's decrypt step, and completion in the step that brings CNT to 0. -/
def Obligations.EngineDecryptStep : Prop :=
  ∀ s : State, nextAgent s = .engine → s.block.work.dirL = .decrypt →
    let k := s.block.work
    let w1 := k.w1 - (((k.w0 <<< 4) + k.kl2) ^^^ (k.w0 + k.sum) ^^^ ((k.w0 >>> 5) + k.kl3))
    let w0 := k.w0 - (((w1 <<< 4) + k.kl0) ^^^ (w1 + k.sum) ^^^ ((w1 >>> 5) + k.kl1))
    let work := { k with w0 := w0, w1 := w1, sum := k.sum - 0x9E3779B9#32, cnt := k.cnt - 1#32 }
    (k.cnt ≠ 1#32 →
      ∃ t, step s = .next t ∧ t.block = { s.block with work := work } ∧
        t.program = s.program ∧ t.hpc = s.hpc ∧ t.log = s.log ∧ t.vars = s.vars) ∧
    (k.cnt = 1#32 →
      ∃ t, step s = .next t ∧
        t.block = { s.block with
          work := work, data0 := w0, data1 := w1
          status := { s.block.status with busy := false, done := true } } ∧
        t.program = s.program ∧ t.hpc = s.hpc ∧ t.log = s.log ∧ t.vars = s.vars)

/-- First half of R132, an inference the spec marks as derived: an accepted start is bound for encrypt_block or
decrypt_block of the registers it latched. -/
def Obligations.StartIsBoundForBlockFunction : Prop :=
  ∀ s : State, s.block.status.busy = false → s.block.rounds ≠ 0#32 →
    let key : Key := ⟨s.block.key0, s.block.key1, s.block.key2, s.block.key3⟩
    (∃ t r, exec .encrypt s = .next t ∧ pendingResult t.block = some r ∧
      encryptBlock (s.block.data0, s.block.data1) key s.block.rounds = some r) ∧
    (∃ t r, exec .decrypt s = .next t ∧ pendingResult t.block = some r ∧
      decryptBlock (s.block.data0, s.block.data1) key s.block.rounds = some r)

/-- Second half of R132, an inference the spec marks as derived, over all steps while BUSY = 1 with CNT >= 1 and no
reset: either BUSY stays and the result the operation is bound for stays, whatever the host writes, or the completion
step writes exactly it into DATA0 and DATA1. -/
def Obligations.NoStepAltersPendingResult : Prop :=
  ∀ s t : State, step s = .next t → s.block.status.busy = true → s.block.work.cnt ≠ 0#32 →
    (nextAgent s = .host → fetch s ≠ some .reset) →
    (t.block.status.busy = true ∧ pendingResult t.block = pendingResult s.block) ∨
    (t.block.status.busy = false ∧ t.block.status.done = true ∧
      pendingResult s.block = some (t.block.data0, t.block.data1))

/-- R132, an inference the spec marks as derived, over any run of steps: let `s` be idle with a count, let its
accepted start give the block of `f 0`, and let `f 0`, …, `f m` be the states of any steps with BUSY = 1 before `f m`,
whatever the host does among them but a RESET. When BUSY is 0 in `f m`, its DATA0 and DATA1 hold the block function of
what the start latched, and DONE is 1. -/
def Obligations.OperationResultIsBlockFunction : Prop :=
  ∀ (d : Direction) (s t : State) (f : Nat → State) (m : Nat),
    s.block.status.busy = false → s.block.rounds ≠ 0#32 →
    exec (match d with | .encrypt => .encrypt | .decrypt => .decrypt) s = .next t → (f 0).block = t.block →
    (∀ j, j < m → (f j).block.status.busy = true ∧ step (f j) = .next (f (j + 1)) ∧
      ¬ (nextAgent (f j) = .host ∧ fetch (f j) = some .reset)) →
    (f m).block.status.busy = false →
    (f m).block.status.done = true ∧
    cipherBlock d (s.block.data0, s.block.data1) ⟨s.block.key0, s.block.key1, s.block.key2, s.block.key3⟩
      s.block.rounds = some ((f m).block.data0, (f m).block.data1)

/-- R134: an operation takes exactly CNT engine steps. Before the last, BUSY stays and CNT has gone down by one each
step; after the last, BUSY = 0 and DONE = 1. -/
def Obligations.OperationTakesExactlyCntEngineSteps : Prop :=
  ∀ b : Block, b.status.busy = true → b.work.cnt ≠ 0#32 →
    (∀ k, k < b.work.cnt.toNat →
      (engineStep^[k] b).status.busy = true ∧ (engineStep^[k] b).work.cnt.toNat = b.work.cnt.toNat - k) ∧
    (engineStep^[b.work.cnt.toNat] b).status.busy = false ∧
    (engineStep^[b.work.cnt.toNat] b).status.done = true

/-- R133, an inference the spec marks as derived: the CNT engine steps of an operation together are the one step of
the collapsed engine. -/
def Obligations.CollapsedEngineAgrees : Prop :=
  ∀ b : Block, b.status.busy = true → b.work.cnt ≠ 0#32 → engineStep^[b.work.cnt.toNat] b = collapsedStep b

/-- R136, with R132, an inference the spec marks as derived: with the host halted, a running operation completes in exactly
CNT steps of the system, leaves its result in DATA0 and DATA1, changes no other register and nothing of the host, and
then the run has ended, which the model answers as the fault `runEnded`, its own choice (log entry 7). -/
def Obligations.HaltedHostRunsToCompletion : Prop :=
  ∀ s : State, hostHalted s = true → s.block.status.busy = true → s.block.work.cnt ≠ 0#32 → ∃ t : State,
    core.run s.block.work.cnt.toNat s = .next t ∧
    t.block.status = { s.block.status with busy := false, done := true } ∧
    pendingResult s.block = some (t.block.data0, t.block.data1) ∧
    t.block.rounds = s.block.rounds ∧ t.block.keyRegs = s.block.keyRegs ∧
    t.program = s.program ∧ t.hpc = s.hpc ∧ t.log = s.log ∧ t.vars = s.vars ∧
    step t = .fault .runEnded

/-- R134's fairness, in the model's schedule (log entry 1): while BUSY = 1, a host step uses up one of the gap before
the engine's next step, so the engine moves after finitely many. It holds for every gap and every value of the free
schedule. -/
def Obligations.HostStepsUseUpTheGap : Prop :=
  ∀ s t : State, step s = .next t → s.block.status.busy = true → nextAgent s = .host →
    currentGap t + 1 = currentGap s ∧ t.draws = s.draws

/-- R63, an inference the spec marks as derived, over all steps: DONE rises only in the step that also clears BUSY and
writes the result. -/
def Obligations.CompletionIsOneAtomicStep : Prop :=
  ∀ s t : State, step s = .next t → s.block.status.done = false → t.block.status.done = true →
    nextAgent s = .engine ∧ s.block.status.busy = true ∧ t.block.status.busy = false ∧
      t.block.data0 = t.block.work.w0 ∧ t.block.data1 = t.block.work.w1 ∧ t.block.status.err = s.block.status.err ∧
      t.block.status.ovr = s.block.status.ovr

/-- R37, conflict C8, over all steps: the latched key and direction of a running operation never change. -/
def Obligations.LatchedKeyImmutableWhileBusy : Prop :=
  ∀ s t : State, step s = .next t → s.block.status.busy = true → t.block.status.busy = true →
    t.block.latchedKey = s.block.latchedKey ∧ t.block.work.dirL = s.block.work.dirL

/-- R21 over all steps: ROUNDS and KEY0 to KEY3 change only in a host turn, and DATA0 and DATA1 only there or at
completion; the engine changes no other register a transaction can read before it completes (R133). -/
def Obligations.EngineChangesNoRegisterBeforeCompletion : Prop :=
  ∀ s t : State, step s = .next t → nextAgent s = .engine →
    (∀ r : Reg, r ≠ .status → r ≠ .data0 → r ≠ .data1 → readReg r t.block = readReg r s.block) ∧
    (s.block.work.cnt ≠ 1#32 → ∀ r : Reg, readReg r t.block = readReg r s.block)

/-! ### Invariants -/

/-- R39, an inference the spec marks as derived, with the model's own clauses on the decrypt sum, `hpc` and the result
variables: every step from every state that
meets the invariant leads to one that meets it. -/
def Obligations.StepKeepsTheInvariant : Prop :=
  ∀ s t : State, s.Inv → step s = .next t → t.Inv

/-- The reset state meets the invariant, with any host program loaded. -/
def Obligations.ResetMeetsTheInvariant : Prop :=
  State.reset.Inv ∧ ∀ program : List Stmt, State.Inv { State.reset with program := program }

/-- R39, an inference the spec marks as derived: the five invariants in every state reachable after reset, whatever
the host program and however the agents' steps interleave. -/
def Obligations.ReachableStatesMeetFiveInvariants : Prop :=
  ∀ (s t : State) (n : Nat), s.block = Block.reset → core.run n s = .next t →
    (t.block.status.busy = true → 1 ≤ t.block.work.cnt.toNat) ∧
    (t.block.status.busy = true → t.block.status.done = false) ∧
    (t.block.status.busy = false → t.block.work.cnt = 0#32) ∧
    (t.block.status.err = 0#4 ∨ t.block.status.err = 1#4 ∨ t.block.status.err = 2#4) ∧
    (t.block.status.err ≠ 0#4 → t.block.status.busy = false ∧ t.block.status.done = false)

/-! ### The host agent -/

/-- R9, R87 and R135: when the host moves and the word it fetches decodes to an instruction, the step is that
instruction's `exec`, around which the step uses up the gap, assigns the named variable the logged read value, and moves
`hpc` past the statement. The gap is the model's own (log entry 1), and so is what a variable named by a WR or a CMD word
takes, the logged 0 (log entry 17): R135 names a variable for RD alone. -/
def Obligations.StepRunsTheDecodedInstruction : Prop :=
  ∀ (s u : State) (word : Encoded) (dst : Option Var) (i : Instr),
    nextAgent s = .host → s.program[s.hpc]? = some (.transact word dst) → decode word = .ok i →
    exec i (takeHostTurn s) = .next u →
    step s = .next { u with
      hpc := u.hpc + 1
      vars := match dst with
        | none => u.vars
        | some x => Vars.set u.vars x u.lastRead }

/-- R85, R120 and R126 in a step: a CMD word that is no row of the table still runs as the write to CTRL that it is. That it
decodes to no instruction and yet runs is DEDUCED (log entry 11); a statement that holds it as a CMD word, a variable
named by it, and the gap are the model's own (log entries 17 and 1). -/
def Obligations.StepRunsAnIllegalCommandAsItsWrite : Prop :=
  ∀ (s u : State) (w : Word) (dst : Option Var),
    nextAgent s = .host → s.program[s.hpc]? = some (.transact (.cmd w) dst) → decode (.cmd w) = .error .illegalCommand →
    exec (.wr .bytes4 0x00#6 w) (takeHostTurn s) = .next u →
    step s = .next { u with
      hpc := u.hpc + 1
      vars := match dst with
        | none => u.vars
        | some x => Vars.set u.vars x u.lastRead }

/-- POLL of R135: one logged four-byte read each try, and `hpc` moves on exactly when `(RDATA & mask) == value`; a bus
error compares RDATA = 0. No state of the block changes. -/
def Obligations.PollRepeatsUntilItsCondition : Prop :=
  ∀ (s : State) (addr : Addr) (mask value : Word), nextAgent s = .host → fetch s = some (.poll addr mask value) →
    ∃ (t : State) (rdata : Word) (berr : Bool), step s = .next t ∧
      exec (.rd .bytes4 addr 0#32) s = .next { s with log := s.log ++ [⟨.read, addr, rdata, berr⟩] } ∧
      (berr = true → rdata = 0#32) ∧
      t.block = s.block ∧ t.program = s.program ∧ t.vars = s.vars ∧ t.log = s.log ++ [⟨.read, addr, rdata, berr⟩] ∧
      t.hpc = if rdata &&& mask = value then s.hpc + 1 else s.hpc

/-- R136: the run has ended, and there is no step, exactly when no statement is left and BUSY = 0. Until then every step
answers a next state: nothing else ever stops the machine. That the end is the fault `runEnded`, and that an `hpc` past
the end counts as halted, is the model's choice (log entry 7). -/
def Obligations.StepStopsExactlyAtEndOfRun : Prop :=
  ∀ s : State,
    (step s = .fault .runEnded ↔ s.program.length ≤ s.hpc ∧ s.block.status.busy = false) ∧
    (¬ (s.program.length ≤ s.hpc ∧ s.block.status.busy = false) → ∃ t, step s = .next t)

/-- R89: each pseudo-instruction assembles to its expansion. -/
def Obligations.PseudoInstructionsExpand : Prop :=
  assembleStmt .enc = assembleStmt (.wr (.named .ctrl) 0x00000001#32) ∧
  assembleStmt .dec = assembleStmt (.wr (.named .ctrl) 0x00000003#32) ∧
  assembleStmt .nop = assembleStmt (.wr (.named .ctrl) 0x00000000#32) ∧
  assembleStmt .wait = assembleStmt (.poll (.named .status) 0x00000001#32 0x00000000#32) ∧
  (∀ a b c d : Word, assembleStmt (.setkey a b c d) =
    assemble [.wr (.named .key0) a, .wr (.named .key1) b, .wr (.named .key2) c, .wr (.named .key3) d]) ∧
  (∀ a b : Word, assembleStmt (.load a b) = assemble [.wr (.named .data0) a, .wr (.named .data1) b]) ∧
  (∀ n : Word, assembleStmt (.setrounds n) = assembleStmt (.wr (.named .rounds) n)) ∧
  (∀ x y : Var, assembleStmt (.result x y) =
    assemble [.rd (.named .data0) (some x), .rd (.named .data1) (some y)]) ∧
  (∀ x : Var, assembleStmt (.check x) = assembleStmt (.rd (.named .status) (some x)))

/-- R186: a step of one instance of a system leaves every other instance, and every base address, as it was, and the steps
of two instances have the same effect in either order. -/
def Obligations.InstancesDoNotInteract : Prop :=
  (∀ (sys sys' : TeaSystem) (k : Nat), systemStep k sys = .next sys' →
    sys'.length = sys.length ∧ (∀ j, j ≠ k → sys'[j]? = sys[j]?) ∧ sys'.map State.base = sys.map State.base ∧
    ∃ s t, sys[k]? = some s ∧ step s = .next t ∧ sys'[k]? = some t) ∧
  (∀ (sys sys₁ sys₂ : TeaSystem) (j k : Nat), j ≠ k → systemStep j sys = .next sys₁ → systemStep k sys₁ = .next sys₂ →
    ∃ sys₃, systemStep k sys = .next sys₃ ∧ systemStep j sys₃ = .next sys₂)

/-! ### Cipher functions -/

/-- R103: the mixing function and its worked examples. -/
def Obligations.MixingFunction : Prop :=
  (∀ x s ka kb : Word, mixF x s ka kb = ((x <<< 4) + ka) ^^^ (x + s) ^^^ ((x >>> 5) + kb)) ∧
  mixF 0x80000000#32 0#32 0#32 0#32 = 0x84000000#32 ∧
  mixF 0x9E3779B9#32 0x9E3779B9#32 0#32 0#32 = 0xDBE8D32F#32

/-- R110, an inference the spec marks as derived: the decrypt round undoes the encrypt round. -/
def Obligations.DecryptRoundUndoesEncryptRound : Prop :=
  ∀ (k : Key) (v0 v1 sum : Word), decryptRound k (encryptRound k ⟨v0, v1, sum⟩) = ⟨v0, v1, sum⟩

/-- R109 and R115, inferences the spec marks as derived: the sum each round uses, and the final sums. -/
def Obligations.SumProgression : Prop :=
  ∀ (k : Key) (v0 v1 n : Word), n ≠ 0#32 →
    (∀ i, i ≤ n.toNat → (cipherRounds .encrypt k i ⟨v0, v1, startSum .encrypt n⟩).sum = delta * BitVec.ofNat 32 i) ∧
    (∀ j, j < n.toNat → (cipherRounds .decrypt k j ⟨v0, v1, startSum .decrypt n⟩).sum =
      delta * BitVec.ofNat 32 (n.toNat - (j + 1) + 1)) ∧
    (cipherRounds .encrypt k n.toNat ⟨v0, v1, startSum .encrypt n⟩).sum = delta * n ∧
    (cipherRounds .decrypt k n.toNat ⟨v0, v1, startSum .decrypt n⟩).sum = 0#32

/-- R111, an inference the spec marks as derived: the block functions are inverse to each other for every key and
count >= 1, so both are bijections. -/
def Obligations.BlockFunctionsAreInverse : Prop :=
  ∀ (b : Word × Word) (k : Key) (n : Word), n ≠ 0#32 →
    (∃ c, encryptBlock b k n = some c ∧ decryptBlock c k n = some b) ∧
    (∃ c, decryptBlock b k n = some c ∧ encryptBlock c k n = some b) ∧
    (∃! c, encryptBlock c k n = some b) ∧ (∃! c, decryptBlock c k n = some b)

/-- R113: a zero count is rejected before any transformation: the functions have no value there, the block reports it,
and the host procedures refuse it. -/
def Obligations.ZeroCountHasNoBlockFunction : Prop :=
  (∀ (b : Word × Word) (k : Key) (n : Word),
    (encryptBlock b k n = none ↔ n = 0#32) ∧ (decryptBlock b k n = none ↔ n = 0#32)) ∧
  (∀ s : State, s.block.status.busy = false → s.block.rounds = 0#32 → ∃ t u,
    exec .encrypt s = .next t ∧ t.block.status.err = errInvalidIterationCount ∧
    exec .decrypt s = .next u ∧ u.block.status.err = errInvalidIterationCount ∧
    t.block.data0 = s.block.data0 ∧ t.block.data1 = s.block.data1 ∧
    u.block.data0 = s.block.data0 ∧ u.block.data1 = s.block.data1) ∧
  (∀ (order : ByteOrder) (data key : List Byte), key.length = 16 → data.length % 8 = 0 →
    encryptBuffer order data key 0 = .error .invalidIterationCount ∧
    decryptBuffer order data key 0 = .error .invalidIterationCount)

/-! ### Buffer operations -/

/-- R152: packing and unpacking are inverse, in both byte orders. -/
def Obligations.PackingRoundTrip : Prop :=
  (∀ (order : ByteOrder) (b0 b1 b2 b3 : Byte), unpackWord order (packWord order b0 b1 b2 b3) = [b0, b1, b2, b3]) ∧
  (∀ (order : ByteOrder) (w : Word), ∃ b0 b1 b2 b3, unpackWord order w = [b0, b1, b2, b3] ∧
    packWord order b0 b1 b2 b3 = w)

/-- R156, then the count check of R157 in the order of R154: key, buffer, count; with all three right there is a result
of the buffer's own length. -/
def Obligations.BufferValidationOrder : Prop :=
  ∀ (order : ByteOrder) (data key : List Byte) (rounds : Int) (d : Direction),
    (key.length ≠ 16 → bufferOperation d order data key rounds = .error .invalidKeyLength) ∧
    (key.length = 16 → data.length % 8 ≠ 0 →
      bufferOperation d order data key rounds = .error .invalidBufferLength) ∧
    (key.length = 16 → data.length % 8 = 0 → (rounds < 1 ∨ 2 ^ 32 - 1 < rounds) →
      bufferOperation d order data key rounds = .error .invalidIterationCount) ∧
    (key.length = 16 → data.length % 8 = 0 → 1 ≤ rounds → rounds ≤ 2 ^ 32 - 1 →
      ∃ out, bufferOperation d order data key rounds = .ok out ∧ out.length = data.length)

/-- R154, R155 and R161, the last an inference the spec marks as derived: output block j is the block function of
input block j alone, unpacked in place. -/
def Obligations.BufferBlocksAreIndependent : Prop :=
  ∀ (order : ByteOrder) (data key : List Byte) (rounds : Int) (d : Direction) (out : List Byte) (j : Nat),
    bufferOperation d order data key rounds = .ok out → 8 * j < data.length →
    ∃ c, cipherBlock d (blockAt order data j) (keyOfBytes order key) (BitVec.ofInt 32 rounds) = some c ∧
      (out.drop (8 * j)).take 8 = unpackWord order c.1 ++ unpackWord order c.2

/-- R162, an inference the spec marks as derived: decrypting what was encrypted gives the buffer back, and the other
way round, in either byte order. -/
def Obligations.BufferRoundTrip : Prop :=
  ∀ (order : ByteOrder) (data key : List Byte) (rounds : Int),
    key.length = 16 → data.length % 8 = 0 → 1 ≤ rounds → rounds ≤ 2 ^ 32 - 1 →
    (∃ out, encryptBuffer order data key rounds = .ok out ∧ decryptBuffer order out key rounds = .ok data) ∧
    (∃ out, decryptBuffer order data key rounds = .ok out ∧ encryptBuffer order out key rounds = .ok data)

/-- R159: a zero-length buffer is valid and issues no command to the block; a wrong key or count still gives its
error. -/
def Obligations.EmptyBufferIsValid : Prop :=
  ∀ (order : ByteOrder) (key : List Byte) (rounds : Int) (d : Direction),
    (key.length = 16 → 1 ≤ rounds → rounds ≤ 2 ^ 32 - 1 →
      bufferOperation d order [] key rounds = .ok [] ∧
      ∃ program, bufferProcedure d order [] key rounds = .ok program ∧
        ∀ (dst : Option Var) (v : Word), Stmt.transact (.cmd v) dst ∉ program ∧
          Stmt.transact (encode (.wr .bytes4 0x00#6 v)) dst ∉ program) ∧
    (key.length ≠ 16 → bufferOperation d order [] key rounds = .error .invalidKeyLength ∧
      bufferProcedure d order [] key rounds = .error .invalidKeyLength) ∧
    (key.length = 16 → rounds < 1 ∨ 2 ^ 32 - 1 < rounds →
      bufferOperation d order [] key rounds = .error .invalidIterationCount ∧
      bufferProcedure d order [] key rounds = .error .invalidIterationCount)
end

