-- ==== Sys2Proof/Laws/State.lean ====
section
/-! SUPPORT. One lemma for each field of State under each named update, and for each field of the block under its own
updates, so that no later proof unfolds a record update. -/

namespace Sys2Proof.Machine

@[simp] theorem State.setBlock_block (s : State) (b : Block) : (s.setBlock b).block = b := rfl
@[simp] theorem State.setBlock_program (s : State) (b : Block) : (s.setBlock b).program = s.program := rfl
@[simp] theorem State.setBlock_hpc (s : State) (b : Block) : (s.setBlock b).hpc = s.hpc := rfl
@[simp] theorem State.setBlock_log (s : State) (b : Block) : (s.setBlock b).log = s.log := rfl
@[simp] theorem State.setBlock_vars (s : State) (b : Block) : (s.setBlock b).vars = s.vars := rfl
@[simp] theorem State.setBlock_gap (s : State) (b : Block) : (s.setBlock b).gap = s.gap := rfl
@[simp] theorem State.setBlock_draws (s : State) (b : Block) : (s.setBlock b).draws = s.draws := rfl
@[simp] theorem State.setBlock_base (s : State) (b : Block) : (s.setBlock b).base = s.base := rfl

@[simp] theorem State.record_block (s : State) (e : LogEntry) : (s.record e).block = s.block := rfl
@[simp] theorem State.record_program (s : State) (e : LogEntry) : (s.record e).program = s.program := rfl
@[simp] theorem State.record_hpc (s : State) (e : LogEntry) : (s.record e).hpc = s.hpc := rfl
@[simp] theorem State.record_log (s : State) (e : LogEntry) : (s.record e).log = s.log ++ [e] := rfl
@[simp] theorem State.record_vars (s : State) (e : LogEntry) : (s.record e).vars = s.vars := rfl
@[simp] theorem State.record_gap (s : State) (e : LogEntry) : (s.record e).gap = s.gap := rfl
@[simp] theorem State.record_draws (s : State) (e : LogEntry) : (s.record e).draws = s.draws := rfl
@[simp] theorem State.record_base (s : State) (e : LogEntry) : (s.record e).base = s.base := rfl

@[simp] theorem State.setVar_block (s : State) (x : Var) (v : Word) : (s.setVar x v).block = s.block := rfl
@[simp] theorem State.setVar_program (s : State) (x : Var) (v : Word) : (s.setVar x v).program = s.program := rfl
@[simp] theorem State.setVar_hpc (s : State) (x : Var) (v : Word) : (s.setVar x v).hpc = s.hpc := rfl
@[simp] theorem State.setVar_log (s : State) (x : Var) (v : Word) : (s.setVar x v).log = s.log := rfl
@[simp] theorem State.setVar_vars (s : State) (x : Var) (v : Word) : (s.setVar x v).vars = Vars.set s.vars x v := rfl
@[simp] theorem State.setVar_gap (s : State) (x : Var) (v : Word) : (s.setVar x v).gap = s.gap := rfl
@[simp] theorem State.setVar_draws (s : State) (x : Var) (v : Word) : (s.setVar x v).draws = s.draws := rfl
@[simp] theorem State.setVar_base (s : State) (x : Var) (v : Word) : (s.setVar x v).base = s.base := rfl

@[simp] theorem State.nextStmt_block (s : State) : (s.nextStmt).block = s.block := rfl
@[simp] theorem State.nextStmt_program (s : State) : (s.nextStmt).program = s.program := rfl
@[simp] theorem State.nextStmt_hpc (s : State) : (s.nextStmt).hpc = s.hpc + 1 := rfl
@[simp] theorem State.nextStmt_log (s : State) : (s.nextStmt).log = s.log := rfl
@[simp] theorem State.nextStmt_vars (s : State) : (s.nextStmt).vars = s.vars := rfl
@[simp] theorem State.nextStmt_gap (s : State) : (s.nextStmt).gap = s.gap := rfl
@[simp] theorem State.nextStmt_draws (s : State) : (s.nextStmt).draws = s.draws := rfl
@[simp] theorem State.nextStmt_base (s : State) : (s.nextStmt).base = s.base := rfl

@[simp] theorem Block.setStatus_rounds (b : Block) (st : Status) : (b.setStatus st).rounds = b.rounds := rfl
@[simp] theorem Block.setStatus_key0 (b : Block) (st : Status) : (b.setStatus st).key0 = b.key0 := rfl
@[simp] theorem Block.setStatus_key1 (b : Block) (st : Status) : (b.setStatus st).key1 = b.key1 := rfl
@[simp] theorem Block.setStatus_key2 (b : Block) (st : Status) : (b.setStatus st).key2 = b.key2 := rfl
@[simp] theorem Block.setStatus_key3 (b : Block) (st : Status) : (b.setStatus st).key3 = b.key3 := rfl
@[simp] theorem Block.setStatus_data0 (b : Block) (st : Status) : (b.setStatus st).data0 = b.data0 := rfl
@[simp] theorem Block.setStatus_data1 (b : Block) (st : Status) : (b.setStatus st).data1 = b.data1 := rfl
@[simp] theorem Block.setStatus_work (b : Block) (st : Status) : (b.setStatus st).work = b.work := rfl
@[simp] theorem Block.setStatus_status (b : Block) (st : Status) : (b.setStatus st).status = st := rfl

@[simp] theorem Block.setRunning_rounds (b : Block) (h : Halves) (c : Word) : (b.setRunning h c).rounds = b.rounds := rfl
@[simp] theorem Block.setRunning_key0 (b : Block) (h : Halves) (c : Word) : (b.setRunning h c).key0 = b.key0 := rfl
@[simp] theorem Block.setRunning_key1 (b : Block) (h : Halves) (c : Word) : (b.setRunning h c).key1 = b.key1 := rfl
@[simp] theorem Block.setRunning_key2 (b : Block) (h : Halves) (c : Word) : (b.setRunning h c).key2 = b.key2 := rfl
@[simp] theorem Block.setRunning_key3 (b : Block) (h : Halves) (c : Word) : (b.setRunning h c).key3 = b.key3 := rfl
@[simp] theorem Block.setRunning_data0 (b : Block) (h : Halves) (c : Word) : (b.setRunning h c).data0 = b.data0 := rfl
@[simp] theorem Block.setRunning_data1 (b : Block) (h : Halves) (c : Word) : (b.setRunning h c).data1 = b.data1 := rfl
@[simp] theorem Block.setRunning_status (b : Block) (h : Halves) (c : Word) : (b.setRunning h c).status = b.status := rfl
@[simp] theorem Block.setRunning_work_w0 (b : Block) (h : Halves) (c : Word) : (b.setRunning h c).work.w0 = h.v0 := rfl
@[simp] theorem Block.setRunning_work_w1 (b : Block) (h : Halves) (c : Word) : (b.setRunning h c).work.w1 = h.v1 := rfl
@[simp] theorem Block.setRunning_work_sum (b : Block) (h : Halves) (c : Word) : (b.setRunning h c).work.sum = h.sum := rfl
@[simp] theorem Block.setRunning_work_cnt (b : Block) (h : Halves) (c : Word) : (b.setRunning h c).work.cnt = c := rfl
@[simp] theorem Block.setRunning_work_dirL (b : Block) (h : Halves) (c : Word) : (b.setRunning h c).work.dirL = b.work.dirL := rfl
@[simp] theorem Block.setRunning_work_kl0 (b : Block) (h : Halves) (c : Word) : (b.setRunning h c).work.kl0 = b.work.kl0 := rfl
@[simp] theorem Block.setRunning_work_kl1 (b : Block) (h : Halves) (c : Word) : (b.setRunning h c).work.kl1 = b.work.kl1 := rfl
@[simp] theorem Block.setRunning_work_kl2 (b : Block) (h : Halves) (c : Word) : (b.setRunning h c).work.kl2 = b.work.kl2 := rfl
@[simp] theorem Block.setRunning_work_kl3 (b : Block) (h : Halves) (c : Word) : (b.setRunning h c).work.kl3 = b.work.kl3 := rfl
@[simp] theorem Block.setRunning_latchedKey (b : Block) (h : Halves) (c : Word) :
    (b.setRunning h c).latchedKey = b.latchedKey := rfl
@[simp] theorem Block.setRunning_running (b : Block) (h : Halves) (c : Word) : (b.setRunning h c).running = h := rfl

@[simp] theorem complete_rounds (b : Block) : (complete b).rounds = b.rounds := rfl
@[simp] theorem complete_key0 (b : Block) : (complete b).key0 = b.key0 := rfl
@[simp] theorem complete_key1 (b : Block) : (complete b).key1 = b.key1 := rfl
@[simp] theorem complete_key2 (b : Block) : (complete b).key2 = b.key2 := rfl
@[simp] theorem complete_key3 (b : Block) : (complete b).key3 = b.key3 := rfl
@[simp] theorem complete_data0 (b : Block) : (complete b).data0 = b.work.w0 := rfl
@[simp] theorem complete_data1 (b : Block) : (complete b).data1 = b.work.w1 := rfl
@[simp] theorem complete_work (b : Block) : (complete b).work = b.work := rfl
@[simp] theorem complete_status (b : Block) : (complete b).status = statusCompleted b.status := rfl

end Sys2Proof.Machine
end

