-- ==== Sys2Proof/Laws/Cipher.lean ====
section
/-! SUPPORT. Rounds in sequence, their sums, and one engine step as one round. -/

namespace Sys2Proof.Machine

@[simp] theorem cipherRounds_zero (d : Direction) (k : Key) (h : Halves) : cipherRounds d k 0 h = h := rfl

/-- One round more, taken first. -/
theorem cipherRounds_succ (d : Direction) (k : Key) (n : Nat) (h : Halves) :
    cipherRounds d k (n + 1) h = cipherRounds d k n (cipherRound d k h) := rfl

/-- One round more, taken last. -/
theorem cipherRounds_succ' (d : Direction) (k : Key) (n : Nat) (h : Halves) :
    cipherRounds d k (n + 1) h = cipherRound d k (cipherRounds d k n h) :=
  Function.iterate_succ_apply' _ _ _

@[simp] theorem encryptRound_sum (k : Key) (h : Halves) : (encryptRound k h).sum = h.sum + delta := rfl
@[simp] theorem decryptRound_sum (k : Key) (h : Halves) : (decryptRound k h).sum = h.sum - delta := rfl

/-- An engine step that is not the last: one round, and CNT down by one (R129, R130). -/
theorem engineStep_running (b : Block) (h : b.work.cnt ≠ 1#32) :
    engineStep b = b.setRunning (cipherRound b.work.dirL b.latchedKey b.running) (b.work.cnt - 1#32) := by
  have hc : b.work.cnt - 1#32 ≠ 0#32 := fun h0 => h (by bv_omega)
  simp [engineStep, hc]

/-- The last engine step: one round, and completion in the same step (R131). -/
theorem engineStep_last (b : Block) (h : b.work.cnt = 1#32) :
    engineStep b = complete (b.setRunning (cipherRound b.work.dirL b.latchedKey b.running) 0#32) := by
  simp [engineStep, h]

/-- Where rounds remain, one engine step leaves one round fewer to the same end. -/
theorem remainingRounds_setRunning (b : Block) (h : b.work.cnt ≠ 0#32) :
    remainingRounds (b.setRunning (cipherRound b.work.dirL b.latchedKey b.running) (b.work.cnt - 1#32)) =
      remainingRounds b := by
  have hn : b.work.cnt.toNat = (b.work.cnt - 1#32).toNat + 1 := by
    have h0 : b.work.cnt.toNat ≠ 0 := fun h0 => h (BitVec.eq_of_toNat_eq (by simpa using h0))
    bv_omega
  simp only [remainingRounds, Block.setRunning_work_dirL, Block.setRunning_latchedKey, Block.setRunning_work_cnt,
    Block.setRunning_running]
  rw [hn, cipherRounds_succ]

end Sys2Proof.Machine
end

