-- ==== Sys2Proof/Laws/Decode.lean ====
section
/-! SUPPORT. The fields of a CMD word and of a BUS listing, read back from the word they were put into. -/

namespace Sys2Proof

@[simp] theorem Size.ofBits_toBits (s : Size) : Size.ofBits s.toBits = s := by cases s <;> rfl

theorem Size.toBits_ofBits (b : BitVec 2) : (Size.ofBits b).toBits = b := by
  revert b; decide

theorem cmdStart_cmdWord (r : BitVec 30) (d s : BitVec 1) : cmdStart (cmdWord r d s) = s.getLsbD 0 := by
  simp [cmdStart, cmdWord]

theorem cmdDirBit_cmdWord (r : BitVec 30) (d s : BitVec 1) : cmdDirBit (cmdWord r d s) = d := by
  ext i hi
  obtain rfl : i = 0 := by omega
  simp [cmdDirBit, cmdWord]

theorem cmdRsvd_cmdWord (r : BitVec 30) (d s : BitVec 1) : cmdRsvd (cmdWord r d s) = r := by
  ext i hi
  have h : 2 + i < 32 := by omega
  have h' : ¬ 2 + i ≤ 1 := by omega
  simp [cmdRsvd, cmdWord, h, h', hi, BitVec.getLsbD_of_ge s (2 + i) (by omega)]

theorem busWord_we (we : BitVec 1) (size : Size) (addr : Addr) (wdata : Word) :
    (busWord we size addr wdata).getLsbD 40 = we.getLsbD 0 := by
  simp [busWord]

theorem busWord_size (we : BitVec 1) (size : Size) (addr : Addr) (wdata : Word) :
    (busWord we size addr wdata).extractLsb' 38 2 = size.toBits := by
  ext i hi
  have h : 38 + i < 41 := by omega
  have h' : 38 + i < 40 := by omega
  simp [busWord, h, h', hi, BitVec.getLsbD_of_ge addr (38 + i - 32) (by omega),
    BitVec.getLsbD_of_ge wdata (38 + i) (by omega)]

theorem busWord_addr (we : BitVec 1) (size : Size) (addr : Addr) (wdata : Word) :
    (busWord we size addr wdata).extractLsb' 32 6 = addr := by
  ext i hi
  have h : 32 + i < 41 := by omega
  have h' : 32 + i < 40 := by omega
  have h'' : 32 + i < 38 := by omega
  simp [busWord, h, h', h'', hi]

theorem busWord_wdata (we : BitVec 1) (size : Size) (addr : Addr) (wdata : Word) :
    (busWord we size addr wdata).extractLsb' 0 32 = wdata := by
  ext i hi
  have h : i < 41 := by omega
  have h' : i < 40 := by omega
  have h'' : i < 38 := by omega
  simp [busWord, h, h', h'', hi]

/-- Every bit of a listing, by the field it lies in (R82). -/
theorem busWord_getLsbD (we : BitVec 1) (size : Size) (a : Addr) (v : Word) (i : Nat) (hi : i < 41) :
    (busWord we size a v).getLsbD i =
      if i < 32 then v.getLsbD i else if i < 38 then a.getLsbD (i - 32)
      else if i < 40 then size.toBits.getLsbD (i - 38) else we.getLsbD 0 := by
  simp only [busWord, BitVec.getLsbD_or, BitVec.getLsbD_shiftLeft, BitVec.getLsbD_setWidth]
  split
  · rename_i h
    simp only [h, hi, show i < 40 by omega, show i < 38 by omega]; simp
  · rename_i h
    rw [BitVec.getLsbD_of_ge v i (by omega)]
    split
    · rename_i h'
      simp only [h, h', hi, show i < 40 by omega, show i - 32 < 41 by omega]; simp
    · rename_i h'
      rw [BitVec.getLsbD_of_ge a (i - 32) (by omega)]
      split
      · rename_i h''
        simp only [h, h', h'', hi, show i - 38 < 41 by omega]; simp
      · obtain rfl : i = 40 := by omega
        rw [BitVec.getLsbD_of_ge size.toBits (40 - 38) (by omega)]; simp

/-- A listing is put together from its own fields. -/
theorem busWord_fields (w : BitVec 41) :
    busWord (w.extractLsb' 40 1) (Size.ofBits (w.extractLsb' 38 2)) (w.extractLsb' 32 6) (w.extractLsb' 0 32) = w := by
  apply BitVec.eq_of_getLsbD_eq
  intro i hi
  rw [busWord_getLsbD _ _ _ _ _ hi, Size.toBits_ofBits]
  simp only [BitVec.getLsbD_extractLsb']
  split
  · rename_i h; simp [h]
  · split
    · simp [show i - 32 < 6 by omega, show 32 + (i - 32) = i by omega]
    · split
      · simp [show i - 38 < 2 by omega, show 38 + (i - 38) = i by omega]
      · obtain rfl : i = 40 := by omega
        simp

/-- A CMD word is put together from its own fields. -/
theorem cmdWord_fields (w : Word) : cmdWord (cmdRsvd w) (cmdDirBit w) (w.extractLsb' 0 1) = w := by
  apply BitVec.eq_of_getLsbD_eq
  intro i hi
  simp only [cmdWord, cmdRsvd, cmdDirBit, BitVec.getLsbD_or, BitVec.getLsbD_shiftLeft, BitVec.getLsbD_setWidth,
    BitVec.getLsbD_extractLsb']
  rcases i with _ | _ | i
  · simp
  · simp
  · simp [show i < 30 by omega, show 2 + i = i + 2 by omega, show i + 2 < 32 by omega]
    intro; omega

end Sys2Proof
end

