-- ==== Sys2Proof/Laws/Ops.lean ====
section
/-! SUPPORT. The result variables keep their canonical form and read back what was written; storing to a register and
reading it. -/

namespace Sys2Proof.Machine

/-- Every entry after setting `x` was there before, or is `x`'s. -/
theorem Vars.mem_set {l : List (Var × Word)} {x : Var} {v : Word} {p : Var × Word}
    (h : p ∈ Vars.set l x v) : p = (x, v) ∨ p ∈ l := by
  induction l with
  | nil => simpa [Vars.set] using h
  | cons q l ih =>
    obtain ⟨y, w⟩ := q
    simp only [Vars.set] at h
    split at h
    · simpa using h
    · split at h
      · simp only [List.mem_cons] at h ⊢; tauto
      · simp only [List.mem_cons] at h ⊢
        rcases h with h | h
        · exact .inr (.inl h)
        · exact (ih h).imp_right .inr

/-- Setting a variable keeps the canonical form. -/
theorem Vars.set_wf {l : List (Var × Word)} (h : Vars.wf l) (x : Var) (v : Word) : Vars.wf (Vars.set l x v) := by
  induction l with
  | nil => simp [Vars.set, Vars.wf]
  | cons q l ih =>
    obtain ⟨y, w⟩ := q
    obtain ⟨hy, hl⟩ := List.pairwise_cons.1 h
    simp only [Vars.set]
    split
    · rename_i hxy
      refine List.pairwise_cons.2 ⟨fun p hp => ?_, h⟩
      rcases List.mem_cons.1 hp with rfl | hp
      · exact hxy
      · exact lt_trans hxy (hy p hp)
    · split
      · rename_i hxy; subst hxy; exact List.pairwise_cons.2 ⟨hy, hl⟩
      · refine List.pairwise_cons.2 ⟨fun p hp => ?_, ih hl⟩
        rcases Vars.mem_set hp with rfl | hp
        · exact lt_of_le_of_ne (not_lt.1 ‹_›) (Ne.symm ‹_›)
        · exact hy p hp

/-- The variable just set holds its value. -/
theorem Vars.get_set_self (l : List (Var × Word)) (x : Var) (v : Word) : Vars.get (Vars.set l x v) x = some v := by
  induction l with
  | nil => simp [Vars.set, Vars.get]
  | cons q l ih =>
    obtain ⟨y, w⟩ := q
    simp only [Vars.set]
    split
    · simp [Vars.get]
    · split
      · simp [Vars.get]
      · simp [Vars.get, *]

/-- Every other variable holds what it held. -/
theorem Vars.get_set_other (l : List (Var × Word)) {x y : Var} (v : Word) (h : y ≠ x) :
    Vars.get (Vars.set l x v) y = Vars.get l y := by
  induction l with
  | nil => simp [Vars.set, Vars.get, h]
  | cons q l ih =>
    obtain ⟨z, w⟩ := q
    simp only [Vars.set]
    split
    · simp [Vars.get, h]
    · split
      · rename_i hxz; subst hxz; simp [Vars.get, h]
      · simp [Vars.get, ih]

/-- The last transaction logged is the one just recorded. -/
@[simp] theorem State.record_lastRead (s : State) (e : LogEntry) : (s.record e).lastRead = e.value := by
  simp [State.lastRead]

/-- A host write to a register with storage is what a read of it then returns. -/
theorem readReg_storeReg_self (r : Reg) (v : Word) (b : Block) (h : r ≠ .ctrl ∧ r ≠ .status) :
    readReg r (storeReg r v b) = v := by
  cases r <;> simp_all [readReg, storeReg]

/-- A host write to one register leaves what a read of any other returns. -/
theorem readReg_storeReg_other (r q : Reg) (v : Word) (b : Block) (h : q ≠ r) :
    readReg q (storeReg r v b) = readReg q b := by
  cases r <;> cases q <;> simp_all [readReg, storeReg]

/-- Storing touches neither the flags nor the working state. -/
@[simp] theorem storeReg_status (r : Reg) (v : Word) (b : Block) : (storeReg r v b).status = b.status := by
  cases r <;> rfl

@[simp] theorem storeReg_work (r : Reg) (v : Word) (b : Block) : (storeReg r v b).work = b.work := by
  cases r <;> rfl

end Sys2Proof.Machine
end

