-- ==== Sys2Proof/Laws/Exec.lean ====
section
/-! SUPPORT. Everything `command`, a transaction and `exec` can do, said once. -/

namespace Sys2Proof.Machine

/-- The five outcomes of a command (R120), of which exactly one occurs. -/
theorem command_cases (v : Word) (b : Block) :
    (cmdStart v = false ∧ command v b = b) ∨
    (cmdStart v = true ∧ b.status.busy = true ∧ command v b = b.setStatus (statusOverrun b.status)) ∨
    (cmdStart v = true ∧ b.status.busy = false ∧ cmdRsvd v ≠ 0#30 ∧
      command v b = b.setStatus (statusCmdError errIllegalCommand (statusTaken b.status))) ∨
    (cmdStart v = true ∧ b.status.busy = false ∧ cmdRsvd v = 0#30 ∧ b.rounds = 0#32 ∧
      command v b = b.setStatus (statusCmdError errInvalidIterationCount (statusTaken b.status))) ∨
    (cmdStart v = true ∧ b.status.busy = false ∧ cmdRsvd v = 0#30 ∧ b.rounds ≠ 0#32 ∧
      command v b = startOperation (cmdDirection v) (b.setStatus (statusTaken b.status))) := by
  by_cases h0 : cmdStart v = false
  · exact .inl ⟨h0, by simp [command, h0]⟩
  simp only [Bool.not_eq_false] at h0
  by_cases h1 : b.status.busy = true
  · exact .inr (.inl ⟨h0, h1, by simp [command, h0, h1]⟩)
  simp only [Bool.not_eq_true] at h1
  by_cases h2 : cmdRsvd v = 0#30
  · by_cases h3 : b.rounds = 0#32
    · exact .inr (.inr (.inr (.inl ⟨h0, h1, h2, h3, by
        simp [command, takeStart, raiseCmdError, Block.setStatus, h0, h1, h2, h3]⟩)))
    · exact .inr (.inr (.inr (.inr ⟨h0, h1, h2, h3, by simp [command, takeStart, h0, h1, h2, h3]⟩)))
  · exact .inr (.inr (.inl ⟨h0, h1, h2, by
      simp [command, takeStart, raiseCmdError, Block.setStatus, h0, h1, h2]⟩))

/-- Every mapped offset is its register's. -/
@[simp] theorem regAt_regOffset (r : Reg) : regAt (regOffset r) = some r := by cases r <;> rfl

/-- An accepted transaction reaches a register: the one whose offset it names, with four bytes, and no write to STATUS. -/
theorem busErrorCause_eq_none {t : Transaction} (h : busErrorCause t = none) :
    t.size = .bytes4 ∧ ∃ r, t.addr = regOffset r ∧ (t.we = true → r ≠ .status) := by
  obtain ⟨we, size, addr, wdata⟩ := t
  have key : ∀ (we : Bool) (addr : Addr), busErrorCause ⟨we, .bytes4, addr, 0#32⟩ = none →
      ∃ r ∈ [Reg.ctrl, .status, .rounds, .key0, .key1, .key2, .key3, .data0, .data1],
        addr = regOffset r ∧ (we = true → r ≠ .status) := by decide
  have hs : size = .bytes4 := by
    by_contra hne
    simp [busErrorCause, hne] at h
  subst hs
  obtain ⟨r, -, hr⟩ := key we addr h
  exact ⟨rfl, r, hr⟩

/-- A four-byte transaction at a register's offset is accepted, but for a write to STATUS. -/
theorem busErrorCause_regOffset (we : Bool) (r : Reg) (v : Word) (h : we = true → r ≠ .status) :
    busErrorCause ⟨we, .bytes4, regOffset r, v⟩ = none := by
  cases r <;> cases we <;> simp_all [busErrorCause, regOffset]

/-- A transaction with a bus error: the error response, and the block as it was (R54). -/
theorem transact_error {t : Transaction} {c : BusErrorCause} (h : busErrorCause t = some c) (b : Block) :
    transact t b = (busErrorResponse, b) := by
  simp [transact, h]

/-- An accepted read: the register's value, and the block as it was (R55). -/
theorem transact_read (r : Reg) (v : Word) (b : Block) :
    transact (readTransaction .bytes4 (regOffset r) v) b = (⟨readReg r b, false⟩, b) := by
  have h := busErrorCause_regOffset false r v (by simp)
  simp [transact, readTransaction, h]

/-- An accepted write: response 0, and the register written or the command performed (R56). -/
theorem transact_write (r : Reg) (v : Word) (b : Block) (hr : r ≠ .status) :
    transact (writeTransaction .bytes4 (regOffset r) v) b = (⟨0#32, false⟩, writeReg r v b) := by
  have h := busErrorCause_regOffset true r v (fun _ => hr)
  simp [transact, writeTransaction, h]

/-- What a transaction can do to the block: nothing, a command, or a store to a register other than CTRL and STATUS. -/
theorem transact_block_cases (t : Transaction) (b : Block) :
    (transact t b).2 = b ∨
    (t.we = true ∧ t.size = .bytes4 ∧ t.addr = regOffset .ctrl ∧ (transact t b).2 = command t.wdata b) ∨
    (∃ r, r ≠ .ctrl ∧ r ≠ .status ∧ t.we = true ∧ t.addr = regOffset r ∧ (transact t b).2 = storeReg r t.wdata b) := by
  cases hc : busErrorCause t with
  | some c => exact .inl (by rw [transact_error hc])
  | none =>
    obtain ⟨hs, r, ha, hr⟩ := busErrorCause_eq_none hc
    obtain ⟨we, size, addr, wdata⟩ := t
    simp only at hs ha hr
    subst hs ha
    cases we with
    | false => exact .inl (by rw [← readTransaction, transact_read])
    | true =>
      have hw := transact_write r wdata b (hr rfl)
      rw [writeTransaction] at hw
      by_cases hctrl : r = .ctrl
      · subst hctrl
        exact .inr (.inl ⟨rfl, rfl, rfl, by rw [hw]; rfl⟩)
      · refine .inr (.inr ⟨r, hctrl, hr rfl, rfl, rfl, ?_⟩)
        rw [hw]
        cases r <;> first | rfl | exact absurd rfl hctrl

@[simp] theorem hostTransact_block (t : Transaction) (s : State) :
    (hostTransact t s).block = (transact t s.block).2 := rfl
@[simp] theorem hostTransact_program (t : Transaction) (s : State) : (hostTransact t s).program = s.program := rfl
@[simp] theorem hostTransact_hpc (t : Transaction) (s : State) : (hostTransact t s).hpc = s.hpc := rfl
@[simp] theorem hostTransact_vars (t : Transaction) (s : State) : (hostTransact t s).vars = s.vars := rfl
@[simp] theorem hostTransact_gap (t : Transaction) (s : State) : (hostTransact t s).gap = s.gap := rfl
@[simp] theorem hostTransact_draws (t : Transaction) (s : State) : (hostTransact t s).draws = s.draws := rfl
@[simp] theorem hostTransact_base (t : Transaction) (s : State) : (hostTransact t s).base = s.base := rfl
@[simp] theorem hostTransact_log (t : Transaction) (s : State) :
    (hostTransact t s).log = s.log ++ [logEntry t (transact t s.block).1] := rfl

@[simp] theorem hostTransact_lastRead (t : Transaction) (s : State) :
    (hostTransact t s).lastRead = (transact t s.block).1.rdata := by
  simp [hostTransact, logEntry]

/-- The transaction an instruction is: its own, or the write that carries its CMD word. -/
def instrTransaction : Instr → Transaction
  | .nop dir rsvd => writeTransaction .bytes4 (regOffset .ctrl) (cmdWord rsvd dir 0#1)
  | .encrypt => writeTransaction .bytes4 (regOffset .ctrl) 0x00000001#32
  | .decrypt => writeTransaction .bytes4 (regOffset .ctrl) 0x00000003#32
  | .rd size addr wdata => readTransaction size addr wdata
  | .wr size addr wdata => writeTransaction size addr wdata

/-- Every instruction is one transaction, and it always completes. -/
theorem exec_eq (i : Instr) (s : State) : exec i s = .next (hostTransact (instrTransaction i) s) := by
  cases i <;> rfl

end Sys2Proof.Machine
end

