-- ==== Sys2Proof/Laws/PerInstr.lean ====
section
/-! SUPPORT. The families of statements made per instruction: RowMatch, that an instruction's encoding has its row's match
value under its row's mask, in the row's width (spec/opcode_table.json, R84). -/

namespace Sys2Proof.Laws.RowMatch

/-- `match`, `mask` and `width` of an instruction's row in spec/opcode_table.json. -/
def row : Instr → Nat × Nat × Nat
  | .nop _ _ => (0x00000000, 0x00000001, 32)
  | .encrypt => (0x00000001, 0xFFFFFFFF, 32)
  | .decrypt => (0x00000003, 0xFFFFFFFF, 32)
  | .rd _ _ _ => (0x00000000000, 0x10000000000, 41)
  | .wr _ _ _ => (0x10000000000, 0x10000000000, 41)

/-- The encoding of `i` has its row's width, and its row's match value under its row's mask. -/
def Statement (i : Instr) : Prop :=
  (encode i).width = (row i).2.2 ∧ (encode i).toNat &&& (row i).2.1 = (row i).1

/-- Bit 40 of a listing is WE (R82). -/
theorem busWord_and_mask (we : BitVec 1) (size : Size) (addr : Addr) (wdata : Word) :
    (busWord we size addr wdata).toNat &&& 2 ^ 40 = (we.getLsbD 0).toNat * 2 ^ 40 := by
  rw [Nat.and_two_pow, ← busWord_we we size addr wdata]
  rfl

theorem nop (dir : BitVec 1) (rsvd : BitVec 30) : Statement (.nop dir rsvd) := by
  refine ⟨rfl, ?_⟩
  have h := cmdStart_cmdWord rsvd dir 0#1
  simp only [cmdStart, BitVec.getLsbD] at h
  show (cmdWord rsvd dir 0#1).toNat &&& 1 = 0
  rw [Nat.and_one_is_mod]
  simpa [Nat.testBit_zero] using h

theorem encrypt : Statement .encrypt := ⟨rfl, by decide⟩

theorem decrypt : Statement .decrypt := ⟨rfl, by decide⟩

theorem rd (size : Size) (addr : Addr) (wdata : Word) : Statement (.rd size addr wdata) :=
  ⟨rfl, busWord_and_mask 0#1 size addr wdata⟩

theorem wr (size : Size) (addr : Addr) (wdata : Word) : Statement (.wr size addr wdata) :=
  ⟨rfl, busWord_and_mask 1#1 size addr wdata⟩

end Sys2Proof.Laws.RowMatch
end

