-- ==== Sys2Proof/Laws/Step.lean ====
section
/-! SUPPORT. Everything a step can do, said once, and what each turn leaves alone. -/

namespace Sys2Proof.Machine

@[simp] theorem takeHostTurn_block (s : State) : (takeHostTurn s).block = s.block := by
  unfold takeHostTurn; split <;> rfl
@[simp] theorem takeHostTurn_program (s : State) : (takeHostTurn s).program = s.program := by
  unfold takeHostTurn; split <;> rfl
@[simp] theorem takeHostTurn_hpc (s : State) : (takeHostTurn s).hpc = s.hpc := by
  unfold takeHostTurn; split <;> rfl
@[simp] theorem takeHostTurn_log (s : State) : (takeHostTurn s).log = s.log := by
  unfold takeHostTurn; split <;> rfl
@[simp] theorem takeHostTurn_vars (s : State) : (takeHostTurn s).vars = s.vars := by
  unfold takeHostTurn; split <;> rfl
@[simp] theorem takeHostTurn_draws (s : State) : (takeHostTurn s).draws = s.draws := by
  unfold takeHostTurn; split <;> rfl
@[simp] theorem takeHostTurn_base (s : State) : (takeHostTurn s).base = s.base := by
  unfold takeHostTurn; split <;> rfl
theorem takeHostTurn_gap (s : State) :
    (takeHostTurn s).gap = if s.block.status.busy then some (currentGap s - 1) else s.gap := by
  unfold takeHostTurn; split <;> rfl

@[simp] theorem endTransact_block (dst : Option Var) (s : State) : (endTransact dst s).block = s.block := by
  cases dst <;> rfl
@[simp] theorem endTransact_program (dst : Option Var) (s : State) : (endTransact dst s).program = s.program := by
  cases dst <;> rfl
@[simp] theorem endTransact_hpc (dst : Option Var) (s : State) : (endTransact dst s).hpc = s.hpc + 1 := by
  cases dst <;> rfl
@[simp] theorem endTransact_log (dst : Option Var) (s : State) : (endTransact dst s).log = s.log := by
  cases dst <;> rfl
@[simp] theorem endTransact_gap (dst : Option Var) (s : State) : (endTransact dst s).gap = s.gap := by
  cases dst <;> rfl
@[simp] theorem endTransact_draws (dst : Option Var) (s : State) : (endTransact dst s).draws = s.draws := by
  cases dst <;> rfl
@[simp] theorem endTransact_base (dst : Option Var) (s : State) : (endTransact dst s).base = s.base := by
  cases dst <;> rfl

/-- The end of a statement keeps the canonical form of the variables. -/
theorem endTransact_vars_wf (dst : Option Var) {s : State} (h : Vars.wf s.vars) : Vars.wf (endTransact dst s).vars := by
  cases dst with
  | none => exact h
  | some x => exact Vars.set_wf h x _

/-- The only word that decodes to no instruction is an illegal CMD word. -/
theorem decode_error_is_cmd {e : Encoded} {err : DecodeError} (h : decode e = .error err) : ∃ w, e = .cmd w := by
  cases e with
  | cmd w => exact ⟨w, rfl⟩
  | bus w => simp [decode] at h

/-- A step that answers a next state is the engine's turn, or a host turn that is one transaction and the end of its
statement, a POLL, or a RESET. -/
theorem step_cases {s t : State} (h : step s = .next t) :
    (nextAgent s = .engine ∧ t = engineTurn s) ∨
    (nextAgent s = .host ∧ ∃ word dst tr, fetch s = some (.transact word dst) ∧
      ((∃ i, decode word = .ok i ∧ tr = instrTransaction i) ∨
        (∃ w, word = .cmd w ∧ tr = writeTransaction .bytes4 (regOffset .ctrl) w)) ∧
      t = endTransact dst (hostTransact tr (takeHostTurn s))) ∨
    (nextAgent s = .host ∧ ∃ addr mask value, fetch s = some (.poll addr mask value) ∧
      t = pollTurn addr mask value (takeHostTurn s)) ∨
    (nextAgent s = .host ∧ fetch s = some .reset ∧ t = resetTurn (takeHostTurn s)) := by
  unfold step at h
  cases ha : nextAgent s with
  | engine =>
    rw [ha] at h
    exact .inl ⟨rfl, (Host.Outcome.next.inj h).symm⟩
  | host =>
    rw [ha] at h
    simp only [hostTurn] at h
    cases hf : fetch s with
    | none => simp [hf] at h
    | some st =>
      rw [hf] at h
      cases st with
      | poll addr mask value =>
        exact .inr (.inr (.inl ⟨rfl, addr, mask, value, rfl, (Host.Outcome.next.inj h).symm⟩))
      | reset => exact .inr (.inr (.inr ⟨rfl, rfl, (Host.Outcome.next.inj h).symm⟩))
      | transact word dst =>
        cases hd : decode word with
        | ok i =>
          simp only [hd, transactTurn, exec_eq] at h
          exact .inr (.inl ⟨rfl, word, dst, _, rfl, .inl ⟨i, hd, rfl⟩, (Host.Outcome.next.inj h).symm⟩)
        | error e =>
          obtain ⟨w, rfl⟩ := decode_error_is_cmd hd
          simp only [hd, illegalTurn, writeCommand] at h
          exact .inr (.inl ⟨rfl, _, dst, _, rfl, .inr ⟨w, rfl, rfl⟩, (Host.Outcome.next.inj h).symm⟩)

/-- What a step can do to the block: an engine step while BUSY = 1, a transaction, or a reset. -/
theorem step_block_cases {s t : State} (h : step s = .next t) :
    (nextAgent s = .engine ∧ s.block.status.busy = true ∧ t.block = engineStep s.block) ∨
    (nextAgent s = .host ∧ ∃ tr, t.block = (transact tr s.block).2) ∨
    (nextAgent s = .host ∧ fetch s = some .reset ∧ t.block = Block.reset) := by
  obtain ⟨ha, rfl⟩ | ⟨ha, -, -, tr, -, -, rfl⟩ | ⟨ha, addr, m, v, -, rfl⟩ | ⟨ha, hf, rfl⟩ := step_cases h
  · refine .inl ⟨ha, ?_, rfl⟩
    unfold nextAgent at ha
    by_contra hb
    simp [hb] at ha
  · exact .inr (.inl ⟨ha, tr, by simp⟩)
  · refine .inr (.inl ⟨ha, readTransaction .bytes4 addr 0#32, ?_⟩)
    unfold pollTurn
    dsimp only
    split <;> simp
  · exact .inr (.inr ⟨ha, hf, rfl⟩)

/-- No step moves the instance to another base address. -/
theorem step_base {s t : State} (h : step s = .next t) : t.base = s.base := by
  obtain ⟨-, rfl⟩ | ⟨-, -, -, -, -, -, rfl⟩ | ⟨-, addr, m, v, -, rfl⟩ | ⟨-, -, rfl⟩ := step_cases h
  · rfl
  · simp
  · unfold pollTurn
    dsimp only
    split <;> simp
  · simp [resetTurn]

end Sys2Proof.Machine
end

