-- ==== Sys2Proof/Laws/System.lean ====
section
/-! SUPPORT. Everything a step of a system can do, said once, and that it keeps the system well-formed. -/

namespace Sys2Proof.Machine

/-- A step of instance `k` answers a next state exactly when that instance's own step does, and it puts that one in place. -/
theorem systemStep_eq_next {k : Nat} {sys sys' : TeaSystem} :
    systemStep k sys = .next sys' ↔ ∃ s t, sys[k]? = some s ∧ step s = .next t ∧ sys' = sys.set k t := by
  unfold systemStep
  cases hk : sys[k]? with
  | none => simp
  | some s => cases hs : step s <;> simp [hs, eq_comm]

/-- No step of a system changes a base address. -/
theorem systemStep_bases {k : Nat} {sys sys' : TeaSystem} (h : systemStep k sys = .next sys') :
    sys'.map State.base = sys.map State.base := by
  obtain ⟨s, t, hk, hs, rfl⟩ := systemStep_eq_next.1 h
  obtain ⟨hlt, hget⟩ := List.getElem?_eq_some_iff.1 hk
  have hb : (sys.map State.base)[k]'(by simpa using hlt) = t.base := by simp [hget, step_base hs]
  rw [List.map_set, ← hb, List.set_getElem_self]

/-- A step keeps the number of instances and their distinct base addresses. -/
theorem systemStep_wf {k : Nat} {sys sys' : TeaSystem} (hw : TeaSystem.wf sys) (h : systemStep k sys = .next sys') :
    TeaSystem.wf sys' := by
  have hb := systemStep_bases h
  refine ⟨fun h0 => hw.1 ?_, ?_⟩
  · subst h0; simpa using hb.symm
  · exact List.pairwise_map.1 (hb ▸ List.pairwise_map.2 hw.2)

end Sys2Proof.Machine
end

