-- ==== Sys2Proof/Machine/Transcriber.lean ====
section
/-! DEFINITION. The written form of host programs (R88, R89) and of listings (R82), over lists of characters. A line
outside the syntax is refused (R185): the transcriber answers none. DESIGN CHOICE (log entry 5): blanks and tabs separate
words, a comma stands where the spec prints one, and hexadecimal digits may have either case. -/

namespace Sys2Proof.Machine

/-- A line up to its comment (R88). -/
def dropComment : List Char → List Char
  | [] => []
  | c :: l => if c = ';' then [] else c :: dropComment l

/-- Ends the word collected so far. -/
def endWord (word : List Char) (rest : List (List Char)) : List (List Char) :=
  match word with
  | [] => rest
  | w => w :: rest

/-- The words of a line; a comma is a word of its own. -/
def wordsOf : List Char → List Char → List (List Char)
  | word, [] => endWord word []
  | word, c :: l =>
    if c = ' ' ∨ c = '\t' then endWord word (wordsOf [] l)
    else if c = ',' then endWord word ([','] :: wordsOf [] l)
    else wordsOf (word ++ [c]) l

/-- The value of a digit character. -/
def digitValue (c : Char) : Option Nat :=
  let n := c.toNat
  if 48 ≤ n ∧ n ≤ 57 then some (n - 48)
  else if 65 ≤ n ∧ n ≤ 70 then some (n - 55)
  else if 97 ≤ n ∧ n ≤ 102 then some (n - 87)
  else none

/-- Reads the digits of a number in a base, from the value of those before them. -/
def digitsValue (radix : Nat) : Nat → List Char → Option Nat
  | n, [] => some n
  | n, c :: l =>
    match digitValue c with
    | some d => if d < radix then digitsValue radix (radix * n + d) l else none
    | none => none

/-- A number, in hexadecimal with a `0x` prefix or in decimal (R88). -/
def numberOf : List Char → Option Nat
  | [] => none
  | '0' :: 'x' :: c :: l => digitsValue 16 0 (c :: l)
  | l => digitsValue 10 0 l

/-- A 32-bit operand. A larger number is no value of the syntax. -/
def wordOperand (l : List Char) : Option Word :=
  match numberOf l with
  | some n => if n < 2 ^ 32 then some (BitVec.ofNat 32 n) else none
  | none => none

/-- The register names of R88. -/
def regOfName : List Char → Option Reg
  | ['C', 'T', 'R', 'L'] => some .ctrl
  | ['S', 'T', 'A', 'T', 'U', 'S'] => some .status
  | ['R', 'O', 'U', 'N', 'D', 'S'] => some .rounds
  | ['K', 'E', 'Y', '0'] => some .key0
  | ['K', 'E', 'Y', '1'] => some .key1
  | ['K', 'E', 'Y', '2'] => some .key2
  | ['K', 'E', 'Y', '3'] => some .key3
  | ['D', 'A', 'T', 'A', '0'] => some .data0
  | ['D', 'A', 'T', 'A', '1'] => some .data1
  | _ => none

/-- A register operand: one of the names, or `@0xNN` with an offset of the 64-byte space (R50, R88). -/
def regOperandOf : List Char → Option RegOperand
  | '@' :: '0' :: 'x' :: l =>
    match numberOf ('0' :: 'x' :: l) with
    | some n => if n < 64 then some (.raw (BitVec.ofNat 6 n)) else none
    | none => none
  | l => (regOfName l).map .named

/-- A character that may stand in a variable's name after its first. -/
def isNameChar (c : Char) : Bool := (97 ≤ c.toNat && c.toNat ≤ 122) || (48 ≤ c.toNat && c.toNat ≤ 57)

/-- The number of a name: its characters, each below 128, as digits to base 128 (log entry 5). -/
def varNumber (l : List Char) : Var := l.foldl (fun n c => 128 * n + c.toNat) 0

/-- A result variable: a lower-case name (R88). -/
def varOf : List Char → Option Var
  | [] => none
  | c :: l => if 97 ≤ c.toNat ∧ c.toNat ≤ 122 ∧ l.all isNameChar then some (varNumber (c :: l)) else none

/-- The size operand of WRS and RDS: a number, 1, 2 or 4 bytes (R88). -/
def sizeOperandOf (l : List Char) : Option Size :=
  match numberOf l with
  | some 1 => some .bytes1
  | some 2 => some .bytes2
  | some 4 => some .bytes4
  | _ => none

/-- One statement from its words (R88, R89). -/
def statementOf (ws : List (List Char)) : Option Source :=
  match ws with
  | [['W', 'R'], r, [','], v] => do some (.wr (← regOperandOf r) (← wordOperand v))
  | [['R', 'D'], r] => do some (.rd (← regOperandOf r) none)
  | [['R', 'D'], r, ['-', '>'], x] => do some (.rd (← regOperandOf r) (some (← varOf x)))
  | [['W', 'R', 'S'], n, [','], r, [','], v] => do
    some (.wrs (← sizeOperandOf n) (← regOperandOf r) (← wordOperand v))
  | [['R', 'D', 'S'], n, [','], r] => do some (.rds (← sizeOperandOf n) (← regOperandOf r))
  | [['P', 'O', 'L', 'L'], r, [','], m, [','], v] => do
    some (.poll (← regOperandOf r) (← wordOperand m) (← wordOperand v))
  | [['R', 'E', 'S', 'E', 'T']] => some .reset
  | [['E', 'N', 'C']] => some .enc
  | [['D', 'E', 'C']] => some .dec
  | [['N', 'O', 'P']] => some .nop
  | [['W', 'A', 'I', 'T']] => some .wait
  | [['S', 'E', 'T', 'K', 'E', 'Y'], a, [','], b, [','], c, [','], d] => do
    some (.setkey (← wordOperand a) (← wordOperand b) (← wordOperand c) (← wordOperand d))
  | [['L', 'O', 'A', 'D'], a, [','], b] => do some (.load (← wordOperand a) (← wordOperand b))
  | [['S', 'E', 'T', 'R', 'O', 'U', 'N', 'D', 'S'], n] => do some (.setrounds (← wordOperand n))
  | [['R', 'E', 'S', 'U', 'L', 'T'], ['-', '>'], x, [','], y] => do some (.result (← varOf x) (← varOf y))
  | [['C', 'H', 'E', 'C', 'K'], ['-', '>'], x] => do some (.check (← varOf x))
  | _ => none

/-- A program from its lines, one statement a line (R88); none where a line is outside the syntax (R185). A line with no
words, such as a comment, holds no statement. -/
def transcribe : List (List Char) → Option (List Source)
  | [] => some []
  | line :: rest =>
    match wordsOf [] (dropComment line), transcribe rest with
    | [], some p => some p
    | ws, some p => (statementOf ws).map (· :: p)
    | _, none => none

/-- The hexadecimal digit of a value below 16. -/
def hexDigit (n : Nat) : Char := Char.ofNat (if n < 10 then 48 + n else 55 + n)

/-- `k` hexadecimal digits of `n`, the most significant first (R6). -/
def hexDigits : Nat → Nat → List Char
  | 0, _ => []
  | k + 1, n => hexDigits k (n / 16) ++ [hexDigit (n % 16)]

/-- The listing of a transaction: three digits for bits 40:32, an underscore, eight digits for bits 31:0 (R82). -/
def listing (w : BitVec 41) : List Char :=
  hexDigits 3 (w.toNat / 2 ^ 32) ++ '_' :: hexDigits 8 (w.toNat % 2 ^ 32)

end Sys2Proof.Machine
end

