-- ==== Sys2Proof/WellFormed.lean ====
section
/-! DEFINITION. When an instruction is written in its listing form (R82). The machine runs every instruction, well-formed
or not: the hardware ignores what this check looks at. -/

namespace Sys2Proof

/-- The WDATA of a read "is 0 in the listing of a read" (R82). Every other field may have any value. -/
def Instr.wf : Instr → Bool
  | .nop _ _ => true
  | .encrypt => true
  | .decrypt => true
  | .rd _ _ wdata => wdata == 0#32
  | .wr _ _ _ => true

end Sys2Proof
end

