-- ==== Sys2Proof/Tests/Slice0.lean ====
section
/-! SUPPORT. The model's own tests. Every expected value is written out from an encoding of spec/30_encoding.md or taken
from spec/95_test_vectors.md, whose row each test names. The witnesses at the end show that the hypotheses of each
statement can be met, clause by clause where it has clauses. -/

namespace Sys2Proof.Machine.Tests

/-- Whether an outcome is a next state with a property. -/
def after (o : Host.Outcome State Fault Refusal) (p : State → Bool) : Bool :=
  match o with
  | .next t => p t
  | .fault _ => false
  | .refused _ => false

/-- A machine after reset with a block and a program of the test's own. -/
def with' (b : Block) (p : List Stmt) : State := { State.reset with block := b, program := p }

/-- The operands of vector V4, with a count. -/
def v4Block (n : Word) : Block :=
  { Block.reset with
    rounds := n, key0 := 0x00112233#32, key1 := 0x44556677#32, key2 := 0x8899AABB#32, key3 := 0xCCDDEEFF#32
    data0 := 0x01234567#32, data1 := 0x89ABCDEF#32 }

/-- The block after the accepted ENC of part 2.5, written out from its table. -/
def running (dir : Direction) (w0 w1 sum cnt : Word) : Block :=
  { v4Block 2#32 with
    status := { busy := true, done := false, ovr := false, err := 0#4 }
    work := { w0 := w0, w1 := w1, sum := sum, cnt := cnt, dirL := dir, kl0 := 0x00112233#32, kl1 := 0x44556677#32,
              kl2 := 0x8899AABB#32, kl3 := 0xCCDDEEFF#32 } }

/-! ### Decoding: words written bit by bit from R81 and R82 -/

theorem test_decode_nop : decodeCmd 0b11111111111111111111111111111110#32 = .ok (.nop 1#1 0x3FFFFFFF#30) := by decide
theorem test_decode_encrypt : decodeCmd 0b00000000000000000000000000000001#32 = .ok .encrypt := by decide
theorem test_decode_decrypt : decodeCmd 0b00000000000000000000000000000011#32 = .ok .decrypt := by decide
theorem test_decode_illegal : decodeCmd 0b00000000000000000000000000000101#32 = .error .illegalCommand := by decide
/-- WE 0, SIZE 10, ADDR 001000, WDATA 0: `RD ROUNDS`, listing 088_00000000 (T1). -/
theorem test_decode_rd : decodeBus 0b01000100000000000000000000000000000000000#41 = .rd .bytes4 0x08#6 0#32 := by decide
/-- WE 1, SIZE 10, ADDR 010100, WDATA: `WR KEY2, 0x8899AABB`, listing 194_8899AABB (T4). -/
theorem test_decode_wr :
    decodeBus 0b11001010010001000100110011010101010111011#41 = .wr .bytes4 0x14#6 0x8899AABB#32 := by decide
theorem test_table_rd : decodeTableWord 48 0x00000000000 = some (.rd .bytes1 0x00#6 0#32) := by decide
theorem test_table_bits_above : decodeTableWord 48 0x20000000000 = none := by decide

/-! ### Well-formedness: an ill-formed term for its check -/

theorem test_wf_rd_with_wdata : (Instr.rd .bytes4 0x08#6 1#32).wf = false := by decide
theorem test_wf_rd_listing : (Instr.rd .bytes4 0x08#6 0#32).wf = true := by decide
theorem test_wf_reserved_size_statement : (Source.wrs .reserved (.named .ctrl) 1#32).wf = false := by decide

/-! ### Instructions, at most two tests each (parts 2.6 and 2.7) -/

/-- K11: a NOP keeps ERR. -/
theorem test_nop_keeps_err :
    after (exec (.nop 0#1 0#30) (with' { Block.reset with
      status := { busy := false, done := false, ovr := false, err := 1#4 } } []))
      (fun t => statusWord t.block.status == 0x10#32) = true := by decide
/-- K4: ENCRYPT is accepted. -/
theorem test_encrypt_accepted :
    after (exec .encrypt (with' Block.reset [])) (fun t => statusWord t.block.status == 0x1#32) = true := by decide
/-- K9: ENCRYPT with ROUNDS = 0. -/
theorem test_encrypt_zero_count :
    after (exec .encrypt (with' { Block.reset with rounds := 0#32 } []))
      (fun t => statusWord t.block.status == 0x10#32) = true := by decide
/-- K17: DECRYPT with the largest count starts from sum 61C88647. -/
theorem test_decrypt_largest_count :
    after (exec .decrypt (with' { Block.reset with rounds := 0xFFFFFFFF#32 } []))
      (fun t => t.block.work.sum == 0x61C88647#32 && statusWord t.block.status == 0x1#32) = true := by decide
/-- K13 with DECRYPT: a START while busy. -/
theorem test_decrypt_while_busy :
    after (exec .decrypt (with' (running .encrypt 0#32 0#32 0#32 2#32) []))
      (fun t => statusWord t.block.status == 0x5#32) = true := by decide
/-- T1: `RD ROUNDS` after reset. -/
theorem test_rd_rounds :
    after (exec (.rd .bytes4 0x08#6 0#32) State.reset) (fun t => t.log == [⟨.read, 0x08#6, 0x20#32, false⟩]) = true := by
  decide
/-- T10: a one-byte read. -/
theorem test_rd_one_byte :
    after (exec (.rd .bytes1 0x1C#6 0#32) (with' (v4Block 2#32) []))
      (fun t => t.log == [⟨.read, 0x1C#6, 0#32, true⟩]) = true := by decide
/-- K10: reserved bits are looked at before the count. -/
theorem test_wr_reserved_before_count :
    after (exec (.wr .bytes4 0x00#6 7#32) (with' { Block.reset with rounds := 0#32 } []))
      (fun t => statusWord t.block.status == 0x20#32) = true := by decide
/-- T7: a misaligned write leaves DATA1. -/
theorem test_wr_misaligned :
    after (exec (.wr .bytes4 0x21#6 1#32) State.reset)
      (fun t => t.block == Block.reset && t.log == [⟨.write, 0x21#6, 0#32, true⟩]) = true := by decide

/-! ### Steps: the engine (part 2.5), the host's statements, and the first instruction after reset -/

theorem test_engine_encrypt_step :
    (engineStep (running .encrypt 0x01234567#32 0x89ABCDEF#32 0#32 2#32)).work =
      (running .encrypt 0xF6B2C7D4#32 0x3D6BB13A#32 0x9E3779B9#32 1#32).work := by decide
theorem test_engine_encrypt_completes :
    engineStep (running .encrypt 0xF6B2C7D4#32 0x3D6BB13A#32 0x9E3779B9#32 1#32) =
      { running .encrypt 0xE0091D53#32 0x83F90A01#32 0x3C6EF372#32 0#32 with
        data0 := 0xE0091D53#32, data1 := 0x83F90A01#32
        status := { busy := false, done := true, ovr := false, err := 0#4 } } := by decide
theorem test_engine_decrypt_step :
    (engineStep (running .decrypt 0xE0091D53#32 0x83F90A01#32 0x3C6EF372#32 2#32)).work =
      (running .decrypt 0xF6B2C7D4#32 0x3D6BB13A#32 0x9E3779B9#32 1#32).work := by decide
theorem test_first_step_encrypt :
    after (step (State.reset.withFetchWord 32 1)) (fun t => t.block.status.busy && t.hpc == 1) = true := by decide
theorem test_first_step_wr :
    after (step (State.reset.withFetchWord 48 0x18800000007)) (fun t => t.block.rounds == 7#32) = true := by decide
theorem test_fetch_word_while_busy :
    nextAgent ((with' (running .encrypt 0#32 0#32 0#32 2#32) []).withFetchWord 32 0) = .host := by decide
/-- K6 in a step: an illegal CMD word is no row of the table, and is rejected by the block. -/
theorem test_step_illegal_command :
    after (step (State.reset.withFetchWord 32 5)) (fun t => statusWord t.block.status == 0x20#32) = true := by decide
theorem test_step_rd_into_variable :
    after (step (with' Block.reset [rdNamed .rounds 7])) (fun t => Vars.get t.vars 7 == some 0x20#32) = true := by decide
theorem test_step_poll_waits :
    after (step { with' (running .encrypt 0#32 0#32 0#32 2#32) (assembleStmt .wait) with gap := some 1 })
      (fun t => t.hpc == 0 && t.gap == some 0) = true := by decide

/-! ### Cipher functions and buffers (parts 2.1, 2.4, 2.8) -/

theorem test_mixF_F10 : mixF 0x01234567#32 0x9E3779B9#32 0x00112233#32 0x44556677#32 = 0xC9414721#32 := by decide
theorem test_encrypt_V1 :
    encryptBlock (0#32, 0#32) ⟨0#32, 0#32, 0#32, 0#32⟩ 32#32 = some (0x41EA3A0A#32, 0x94BAA940#32) := by decide
theorem test_encrypt_V4 :
    encryptBlock (0x01234567#32, 0x89ABCDEF#32) (v4Block 32#32).keyRegs 32#32 =
      some (0x126C6B92#32, 0xC0653A3E#32) := by decide
theorem test_decrypt_V4 :
    decryptBlock (0x01234567#32, 0x89ABCDEF#32) (v4Block 32#32).keyRegs 32#32 =
      some (0xBF467633#32, 0x9D07A595#32) := by decide +kernel

/-- The key bytes KB of part 2.8. -/
def keyBytes : List Byte :=
  [0x00#8, 0x11#8, 0x22#8, 0x33#8, 0x44#8, 0x55#8, 0x66#8, 0x77#8] ++
  [0x88#8, 0x99#8, 0xAA#8, 0xBB#8, 0xCC#8, 0xDD#8, 0xEE#8, 0xFF#8]

/-- The data bytes DB of part 2.8. -/
def dataBytes : List Byte := [0x01#8, 0x23#8, 0x45#8, 0x67#8, 0x89#8, 0xAB#8, 0xCD#8, 0xEF#8]

/-- One block of B5. -/
theorem test_buffer_little :
    encryptBuffer .little dataBytes keyBytes 32 =
      .ok [0xD6#8, 0x03#8, 0x39#8, 0xC7#8, 0x76#8, 0x0A#8, 0xB1#8, 0x86#8] := by decide
/-- One block of B4. -/
theorem test_buffer_big :
    encryptBuffer .big dataBytes keyBytes 32 =
      .ok [0x12#8, 0x6C#8, 0x6B#8, 0x92#8, 0xC0#8, 0x65#8, 0x3A#8, 0x3E#8] := by decide
/-- B10: the key is checked first. -/
theorem test_buffer_key_first :
    encryptBuffer .big (dataBytes.take 7) (keyBytes.take 15) 0 = .error .invalidKeyLength := by decide

/-! ### The written form (R82, R88) -/

theorem test_transcribe_rd :
    transcribe [[';', ' ', 'x'], ['R', 'D', ' ', 'D', 'A', 'T', 'A', '0', ' ', '-', '>', ' ', 'c', '0', ';', 'y']] =
      some [.rd (.named .data0) (some (99 * 128 + 48))] := by decide
theorem test_transcribe_wr_raw :
    transcribe [['W', 'R', ' ', '@', '0', 'x', '2', '1', ',', ' ', '0', 'x', '1', 'F']] =
      some [.wr (.raw 0x21#6) 0x1F#32] := by decide
theorem test_transcribe_refuses_size_3 :
    transcribe [['R', 'D', 'S', ' ', '3', ',', ' ', 'D', 'A', 'T', 'A', '0']] = none := by decide
theorem test_transcribe_size_in_hexadecimal :
    transcribe [['R', 'D', 'S', ' ', '0', 'x', '1', ',', ' ', 'D', 'A', 'T', 'A', '0']] =
      some [.rds .bytes1 (.named .data0)] := by decide
/-- R82: `WR CTRL, 0x00000001` is 180_00000001. -/
theorem test_listing_enc :
    (assembleStmt .enc).map (fun st => match st with | .transact (.bus w) _ => listing w | _ => []) =
      [['1', '8', '0', '_', '0', '0', '0', '0', '0', '0', '0', '1']] := by decide

/-! ### Witnesses: states and operands that meet the hypotheses of the statements -/

/-- EncodeAfterDecodeIsIdentity, CommandIsItsCtrlWrite: a word of each format that decodes. -/
theorem witness_decodes : decode (.cmd 2#32) = .ok (.nop 1#1 0#30) ∧
    decode (.bus 0x08400000000#41) = .ok (.rd .bytes4 0x04#6 0#32) := by decide
/-- CommandAndBusDecodeMap, StepRunsAnIllegalCommandAsItsWrite: the two ends of the illegal words. -/
theorem witness_illegal_words : decode (.cmd 0x00000005#32) = .error .illegalCommand ∧
    decode (.cmd 0xFFFFFFFF#32) = .error .illegalCommand := by decide
/-- BusAcceptanceAndBusError, ReadReturnsRegister, WriteStoresRegister: the last accepted offset, and each refusal at the
edge of its range. -/
theorem witness_acceptance :
    accept ⟨true, .bytes4, 0x20#6, 0#32⟩ = true ∧ accept ⟨false, .bytes4, 0x04#6, 0#32⟩ = true ∧
    busErrorCause ⟨false, .reserved, 0x3F#6, 0#32⟩ = some .beSize ∧
    busErrorCause ⟨true, .bytes4, 0x3F#6, 0#32⟩ = some .beMisaligned ∧
    busErrorCause ⟨false, .bytes4, 0x24#6, 0#32⟩ = some .beUnmapped ∧
    busErrorCause ⟨false, .bytes4, 0x3C#6, 0#32⟩ = some .beUnmapped ∧
    busErrorCause ⟨true, .bytes4, 0x04#6, 0#32⟩ = some .beReadonly := by decide
/-- OnlyCommandWritesAreNotIdempotent, AcceptedStartLatchesOperands, StartIsBoundForBlockFunction: an idle block with the
smallest and the largest count. -/
theorem witness_idle_with_count :
    (v4Block 1#32).status.busy = false ∧ (v4Block 1#32).rounds ≠ 0#32 ∧
    (v4Block 0xFFFFFFFF#32).status.busy = false ∧ (v4Block 0xFFFFFFFF#32).rounds ≠ 0#32 := by decide
/-- EveryInstructionCompletesWithFrame, last clause: a write elsewhere, and one to CTRL that is refused. -/
theorem witness_not_a_command :
    (∀ v, Instr.wr .bytes4 0x08#6 1#32 ≠ .wr .bytes4 0x00#6 v) ∧
    (∀ v, Instr.wr .bytes2 0x00#6 1#32 ≠ .wr .bytes4 0x00#6 v) := by simp
/-- StartWhileBusySetsOnlyOvr: BUSY = 1 and a START with every other bit set (K14's kind). -/
theorem witness_busy_start :
    (running .encrypt 0#32 0#32 0#32 2#32).status.busy = true ∧ (0xFFFFFFFF#32 : Word).getLsbD 0 = true := by decide
/-- IllegalCommandIsRejected: K6 and K7. -/
theorem witness_idle_illegal :
    Block.reset.status.busy = false ∧ (5#32 : Word).getLsbD 0 = true ∧ (5#32 : Word).extractLsb' 2 30 ≠ 0#30 ∧
    (0x80000001#32 : Word).getLsbD 0 = true ∧ (0x80000001#32 : Word).extractLsb' 2 30 ≠ 0#30 := by decide
/-- ZeroCountIsRejected, ZeroCountHasNoBlockFunction. -/
theorem witness_idle_zero_count : (v4Block 0#32).status.busy = false ∧ (v4Block 0#32).rounds = 0#32 := by decide
/-- ReportsKeptUntilNextIdleStart: ERR changes in a START's step (K16), and DONE and OVR fall in one and in a RESET. -/
theorem witness_reports_change :
    after (step ((with' { Block.reset with status := { busy := false, done := true, ovr := true, err := 0#4 } } []).withFetchWord
      32 5)) (fun t => statusWord t.block.status == 0x20#32) = true ∧
    after (step (with' { Block.reset with status := { busy := false, done := true, ovr := true, err := 0#4 } } [.reset]))
      (fun t => statusWord t.block.status == 0#32) = true := by decide
/-- ResetSetsEveryValue: a running block with a RESET next, and the fresh block. -/
theorem witness_reset_turn :
    nextAgent { with' (running .decrypt 1#32 2#32 3#32 4#32) [.reset] with gap := some 1 } = .host ∧
    fetch (with' (running .decrypt 1#32 2#32 3#32 4#32) [.reset]) = some .reset ∧ State.reset.block = Block.reset := by
  decide
/-- OnlyCompletionOrResetEndsOperation, CompletionIsOneAtomicStep, NoStepAltersPendingResult, EngineEncryptStep: the last
engine step (CNT = 1), which ends the operation. -/
theorem witness_last_engine_step :
    nextAgent (with' (running .encrypt 1#32 2#32 3#32 1#32) []) = .engine ∧
    after (step (with' (running .encrypt 1#32 2#32 3#32 1#32) []))
      (fun t => !t.block.status.busy && t.block.status.done) = true := by decide
/-- OperationResultIsBlockFunction: an accepted start with a count of 1, and the one engine step (m = 1) that ends its run
with the host halted. -/
theorem witness_started_run :
    (v4Block 1#32).status.busy = false ∧ (v4Block 1#32).rounds ≠ 0#32 ∧
    after (exec .encrypt (with' (v4Block 1#32) [])) (fun t => t.block.status.busy && (nextAgent t == .engine) &&
      after (step t) (fun u => !u.block.status.busy && u.block.status.done)) = true := by decide
/-- OperationResultIsBlockFunction, the other direction, with a host write during the operation: the start, a host turn
and the engine step that ends it (m = 2). -/
theorem witness_started_run_decrypt :
    after (exec .decrypt { with' (v4Block 1#32) [wrNamed .data0 7#32] with gap := some 1 }) (fun t =>
      t.block.status.busy && (nextAgent t == .host) && (fetch t == some (wrNamed .data0 7#32)) && after (step t) (fun u =>
        u.block.status.busy && (nextAgent u == .engine) && after (step u) (fun v =>
          !v.block.status.busy && v.block.status.done))) = true := by decide
/-- OnlyCompletionOrResetEndsOperation, the other clause: a RESET ends the operation. -/
theorem witness_reset_ends_operation :
    after (step { with' (running .encrypt 1#32 2#32 3#32 9#32) [.reset] with gap := some 1 })
      (fun t => !t.block.status.busy && !t.block.status.done) = true := by decide
/-- EngineMovesExactlyWhenBusy, EngineDecryptStep (both clauses), EngineChangesNoRegisterBeforeCompletion: an engine turn
with the host not halted, CNT = 2 and CNT = 1. -/
theorem witness_engine_turn_decrypt :
    nextAgent { with' (running .decrypt 1#32 2#32 3#32 2#32) [.reset] with gap := some 0 } = .engine ∧
    nextAgent { with' (running .decrypt 1#32 2#32 3#32 1#32) [.reset] with gap := some 0 } = .engine := by decide
/-- EngineEncryptStep, first clause. -/
theorem witness_engine_turn_encrypt :
    nextAgent (with' (running .encrypt 1#32 2#32 3#32 0xFFFFFFFF#32) []) = .engine := by decide
/-- NoStepAltersPendingResult, LatchedKeyImmutableWhileBusy, HostStepsUseUpTheGap: a host write to DATA0 while busy (T13). -/
theorem witness_host_turn_while_busy :
    nextAgent { with' (running .encrypt 1#32 2#32 3#32 2#32) [wrNamed .data0 1#32] with gap := some 1 } = .host ∧
    after (step { with' (running .encrypt 1#32 2#32 3#32 2#32) [wrNamed .data0 1#32] with gap := some 1 })
      (fun t => t.block.status.busy && t.block.data0 == 1#32 &&
        pendingResult t.block == pendingResult (running .encrypt 1#32 2#32 3#32 2#32)) = true := by decide
/-- OperationTakesExactlyCntEngineSteps, CollapsedEngineAgrees, HaltedHostRunsToCompletion: a halted host, BUSY = 1. -/
theorem witness_halted_and_busy :
    hostHalted (with' (running .encrypt 1#32 2#32 3#32 1#32) []) = true ∧
    (running .encrypt 1#32 2#32 3#32 1#32).status.busy = true ∧
    (running .encrypt 1#32 2#32 3#32 1#32).work.cnt ≠ 0#32 := by decide
/-- StepKeepsTheInvariant: a running decryption that meets the invariant and has a step. -/
theorem witness_invariant :
    State.Inv (with' (running .decrypt 1#32 2#32 (delta * 2#32) 2#32) []) ∧
    after (step (with' (running .decrypt 1#32 2#32 (delta * 2#32) 2#32) [])) (fun _ => true) = true := by decide
/-- ReachableStatesMeetFiveInvariants: a run of one step from reset. -/
theorem witness_reachable : after (core.run 1 (with' Block.reset [.reset])) (fun t => t.hpc == 1) = true := by decide
/-- StepRunsTheDecodedInstruction, StepRunsAnIllegalCommandAsItsWrite, PollRepeatsUntilItsCondition: the host moves on each
kind of statement. -/
theorem witness_host_turns :
    nextAgent (with' Block.reset [rdNamed .status 0]) = .host ∧
    nextAgent (with' Block.reset [readStmt .bytes4 (.named .status) none]) = .host ∧
    after (exec (.rd .bytes4 0x04#6 0#32) (takeHostTurn (with' Block.reset [readStmt .bytes4 (.named .status) none])))
      (fun _ => true) = true ∧
    nextAgent (with' Block.reset [.transact (.cmd 5#32) none]) = .host ∧
    nextAgent (with' Block.reset [.transact (.cmd 5#32) (some 0)]) = .host ∧
    after (exec (.wr .bytes4 0x00#6 5#32) (takeHostTurn (with' Block.reset [.transact (.cmd 5#32) (some 0)])))
      (fun _ => true) = true ∧
    nextAgent (with' Block.reset [.poll 0x04#6 1#32 0#32]) = .host ∧
    fetch (with' Block.reset [.poll 0x04#6 1#32 0#32]) = some (.poll 0x04#6 1#32 0#32) ∧
    after (exec (.rd .bytes4 0x04#6 0#32) (takeHostTurn (with' Block.reset [rdNamed .status 0]))) (fun _ => true) = true := by
  decide
/-- PollRepeatsUntilItsCondition: a POLL that goes on, one that waits, and one on a bus error, which compares 0. -/
theorem witness_poll_outcomes :
    after (step (with' Block.reset [.poll 0x08#6 0x20#32 0x20#32])) (fun t => t.hpc == 1) = true ∧
    after (step (with' Block.reset [.poll 0x08#6 0x20#32 0#32])) (fun t => t.hpc == 0) = true ∧
    after (step (with' Block.reset [.poll 0x3C#6 0xFFFFFFFF#32 0#32])) (fun t => t.hpc == 1) = true := by decide
/-- StepStopsExactlyAtEndOfRun: State.reset, which has no program, is the end of a run. -/
theorem witness_end_of_run : State.reset.program.length ≤ State.reset.hpc ∧ State.reset.block.status.busy = false ∧
    (step State.reset matches .fault .runEnded) = true := by decide
/-- InstancesDoNotInteract, second clause: both instances of a well-formed system take a step, one after the other. -/
theorem witness_system_two_steps :
    let sys : TeaSystem := [with' Block.reset [.reset], { with' Block.reset [.reset] with base := 64 }]
    sys.wf ∧ (match systemStep 0 sys with
      | .next sys₁ => match systemStep 1 sys₁ with
        | .next _ => true
        | _ => false
      | _ => false) = true := by decide
/-- InstancesDoNotInteract: instance 1 of two takes a step. -/
theorem witness_system_step :
    (match systemStep 1 [State.reset, { with' Block.reset [.reset] with base := 64 }] with
      | .next sys => sys == [State.reset, { with' Block.reset [.reset] with base := 64, hpc := 1 }]
      | _ => false) = true := by decide
/-- SumProgression, BlockFunctionsAreInverse: the least and the largest count. -/
theorem witness_counts : (1#32 : Word) ≠ 0#32 ∧ (0xFFFFFFFF#32 : Word) ≠ 0#32 := by decide
/-- BufferValidationOrder, BufferRoundTrip, BufferBlocksAreIndependent, EmptyBufferIsValid: valid operands at both ends of
the counts, and each error at the edge of its range (B6 to B15). -/
theorem witness_buffers :
    keyBytes.length = 16 ∧ dataBytes.length % 8 = 0 ∧ validate dataBytes keyBytes 1 = .ok () ∧
    validate dataBytes keyBytes (2 ^ 32 - 1) = .ok () ∧ validate [] keyBytes 1 = .ok () ∧
    validate dataBytes (keyBytes.take 15) 0 = .error .invalidKeyLength ∧
    validate dataBytes (keyBytes ++ [0#8]) 1 = .error .invalidKeyLength ∧
    validate (dataBytes.take 7) keyBytes 0 = .error .invalidBufferLength ∧
    validate (dataBytes ++ [0#8]) keyBytes 1 = .error .invalidBufferLength ∧
    validate [] keyBytes 0 = .error .invalidIterationCount ∧
    validate dataBytes keyBytes (2 ^ 32) = .error .invalidIterationCount ∧
    encryptBuffer .big dataBytes keyBytes 1 matches .ok _ := by decide

end Sys2Proof.Machine.Tests
end

section
/-! PROOFS. The fields of the STATUS word (R24, R29), and what a read of a register answers (R55). -/

namespace Sys2Proof.Machine

@[simp] theorem statusWord_busy (st : Status) : (statusWord st)[0] = st.busy := by
  simp [statusWord]

@[simp] theorem statusWord_done (st : Status) : (statusWord st)[1] = st.done := by
  simp [statusWord]

@[simp] theorem statusWord_ovr (st : Status) : (statusWord st)[2] = st.ovr := by
  simp [statusWord]

@[simp] theorem statusWord_bit3 (st : Status) : (statusWord st)[3] = false := by
  simp [statusWord]

/-- From bit 4 on the word holds ERR alone: the highest flag, OVR, stands at bit 2. -/
theorem statusWord_getLsbD_from_four (st : Status) (i : Nat) :
    (statusWord st).getLsbD (4 + i) = st.err.getLsbD i := by
  have hovr : ¬ 4 + i - 2 = 0 := by omega
  rcases lt_or_ge i 4 with hi | hi
  · have hlt : i < 32 ∧ 4 + i < 32 := by omega
    simp [statusWord, hovr, hlt]
  · simp [statusWord, hovr, BitVec.getLsbD_of_ge st.err i hi]

@[simp] theorem statusWord_err (st : Status) : (statusWord st).extractLsb' 4 4 = st.err := by
  refine BitVec.eq_of_getLsbD_eq fun i hi => ?_
  simp [statusWord_getLsbD_from_four, hi]

@[simp] theorem statusWord_upper (st : Status) : (statusWord st).extractLsb' 8 24 = 0#24 := by
  refine BitVec.eq_of_getLsbD_eq fun i hi => ?_
  have h := statusWord_getLsbD_from_four st (4 + i)
  rw [← Nat.add_assoc] at h
  simp [hi, h]

/-- A four-byte RD at a register's offset logs the register's value and leaves everything else (R55). -/
theorem exec_rd_regOffset (r : Reg) (v : Word) (s : State) :
    exec (.rd .bytes4 (regOffset r) v) s =
      .next { s with log := s.log ++ [⟨.read, regOffset r, readReg r s.block, false⟩] } := by
  rw [exec_eq, instrTransaction, hostTransact, transact_read]
  rfl

/-- Settles O7: the read at 0x04 logs the STATUS word, whose fields the lemmas above name. -/
theorem statusReadLayout : Obligations.StatusReadLayout := fun s v =>
  ⟨statusWord s.block.status, exec_rd_regOffset .status v s, statusWord_busy _, statusWord_done _, statusWord_ovr _,
    statusWord_bit3 _, statusWord_err _, statusWord_upper _⟩

end Sys2Proof.Machine
end

section
/-! PROOFS. The bus: when a transaction is accepted, the response to a refused one (R54), and the reads of R55. -/

namespace Sys2Proof.Machine

/-- Rule R54's `ADDR[1:0]` = `00`, as divisibility of the offset. -/
theorem addr_aligned_iff (a : Addr) : a.extractLsb' 0 2 = 0b00#2 ↔ a.toNat % 4 = 0 := by
  simp [BitVec.toNat_eq]

/-- The conditions of R54 on `ADDR`, as conditions on its value. -/
theorem busErrorCause_eq (t : Transaction) :
    busErrorCause t =
      if t.size ≠ .bytes4 then some .beSize
      else if t.addr.toNat % 4 ≠ 0 then some .beMisaligned
      else if 0x20 < t.addr.toNat then some .beUnmapped
      else if t.we = true ∧ t.addr = 0x04#6 then some .beReadonly
      else none := by
  simp only [busErrorCause, ne_eq, addr_aligned_iff, BitVec.le_def, BitVec.toNat_ofNat, not_le, Nat.reducePow,
    Nat.reduceMod]

/-- `accept(t)` is the conjunction of the four conditions of R54. -/
theorem accept_iff (t : Transaction) :
    accept t = true ↔
      t.size = .bytes4 ∧ t.addr.toNat % 4 = 0 ∧ t.addr.toNat ≤ 0x20 ∧ ¬ (t.we = true ∧ t.addr = 0x04#6) := by
  rw [accept, busErrorCause_eq]
  split_ifs with hsize halign hmapped hstatus
  · simp [hsize]
  · simp [halign]
  · simp [hmapped]
  · simp [hstatus]
  · simp_all

theorem busErrorCause_of_size {t : Transaction} (hs : t.size ≠ .bytes4) : busErrorCause t = some .beSize := by
  simp [busErrorCause_eq, hs]

theorem busErrorCause_of_misaligned {t : Transaction} (hs : t.size = .bytes4) (ha : t.addr.toNat % 4 ≠ 0) :
    busErrorCause t = some .beMisaligned := by
  simp [busErrorCause_eq, hs, ha]

theorem busErrorCause_of_unmapped {t : Transaction} (hs : t.size = .bytes4) (ha : t.addr.toNat % 4 = 0)
    (hu : 0x20 < t.addr.toNat) : busErrorCause t = some .beUnmapped := by
  simp [busErrorCause_eq, hs, ha, hu]

theorem busErrorCause_of_status_write {t : Transaction} (hs : t.size = .bytes4) (hw : t.we = true)
    (ha : t.addr = 0x04#6) : busErrorCause t = some .beReadonly := by
  simp [busErrorCause_eq, hs, hw, ha]

/-- A refused transaction leaves the state as it was, but for the logged error response (R54). -/
theorem hostTransact_refused {t : Transaction} (h : accept t = false) (s : State) :
    hostTransact t s =
      { s with log := s.log ++ [⟨if t.we then .write else .read, t.addr, 0x00000000#32, true⟩] } := by
  obtain ⟨c, hc⟩ := Option.isSome_iff_exists.mp (Option.isNone_eq_false_iff.mp h)
  rw [hostTransact, transact_error hc]
  rfl

theorem exec_rd_refused {size : Size} {addr : Addr} {v : Word} (h : accept ⟨false, size, addr, v⟩ = false) (s : State) :
    exec (.rd size addr v) s = .next { s with log := s.log ++ [⟨.read, addr, 0x00000000#32, true⟩] } := by
  rw [exec_eq, instrTransaction, readTransaction, hostTransact_refused h]
  rfl

theorem exec_wr_refused {size : Size} {addr : Addr} {v : Word} (h : accept ⟨true, size, addr, v⟩ = false) (s : State) :
    exec (.wr size addr v) s = .next { s with log := s.log ++ [⟨.write, addr, 0x00000000#32, true⟩] } := by
  rw [exec_eq, instrTransaction, writeTransaction, hostTransact_refused h]
  rfl

/-- Settles O6: the four conditions of acceptance, the two refused transactions, and the cause of each refusal. -/
theorem busAcceptanceAndBusError : Obligations.BusAcceptanceAndBusError :=
  ⟨accept_iff, fun _ _ _ s h => exec_rd_refused h s, fun _ _ _ s h => exec_wr_refused h s, fun _ =>
    ⟨busErrorCause_of_size, busErrorCause_of_misaligned, busErrorCause_of_unmapped, busErrorCause_of_status_write⟩⟩

/-- Settles O8: one read per register of R51, and the refused reads. -/
theorem readReturnsRegister : Obligations.ReadReturnsRegister := fun s v =>
  ⟨exec_rd_regOffset .ctrl v s, exec_rd_regOffset .status v s, exec_rd_regOffset .rounds v s,
    exec_rd_regOffset .key0 v s, exec_rd_regOffset .key1 v s, exec_rd_regOffset .key2 v s, exec_rd_regOffset .key3 v s,
    exec_rd_regOffset .data0 v s, exec_rd_regOffset .data1 v s, fun _ _ h => exec_rd_refused h s⟩

end Sys2Proof.Machine
end

section
/-! PROOFS. The decode map of CMD words and BUS listings (R84), and the expansions of the pseudo-instructions (R89). -/

namespace Sys2Proof.Machine

/-- START = 1 with the reserved bits 0 leaves DIR alone to choose: the two legal START words (R81, R84). -/
theorem eq_encrypt_or_decrypt_word {w : Word} (hstart : cmdStart w = true) (hrsvd : cmdRsvd w = 0#30) :
    w = 0x00000001#32 ∨ w = 0x00000003#32 := by
  have hbit : w.extractLsb' 0 1 = 1#1 := by
    ext i hi
    obtain rfl : i = 0 := by omega
    simpa [cmdStart] using hstart
  have hw := cmdWord_fields w
  rw [hrsvd, hbit] at hw
  rcases BitVec.eq_zero_or_eq_one (cmdDirBit w) with hdir | hdir <;> rw [hdir] at hw
  · exact .inl hw.symm
  · exact .inr hw.symm

/-- Every CMD word falls under one row of R84's map, or is illegal. -/
theorem decodeCmd_cases (w : Word) :
    (cmdStart w = false ∧ decodeCmd w = .ok (.nop (cmdDirBit w) (cmdRsvd w))) ∨
    (w = 0x00000001#32 ∧ decodeCmd w = .ok .encrypt) ∨
    (w = 0x00000003#32 ∧ decodeCmd w = .ok .decrypt) ∨
    (cmdStart w = true ∧ cmdRsvd w ≠ 0#30 ∧ decodeCmd w = .error .illegalCommand) := by
  by_cases hnop : cmdStart w = false
  · exact .inl ⟨hnop, if_pos hnop⟩
  by_cases henc : w = 0x00000001#32
  · exact .inr (.inl ⟨henc, henc ▸ rfl⟩)
  by_cases hdec : w = 0x00000003#32
  · exact .inr (.inr (.inl ⟨hdec, hdec ▸ rfl⟩))
  have hstart : cmdStart w = true := Bool.eq_true_of_not_eq_false hnop
  refine .inr (.inr (.inr ⟨hstart, fun hrsvd => ?_, by simp [decodeCmd, hnop, henc, hdec]⟩))
  exact (eq_encrypt_or_decrypt_word hstart hrsvd).elim henc hdec

/-- R84's map of CMD words, row by row. The rows exclude each other, so the one that applies decides all four. -/
theorem decodeCmd_map (w : Word) :
    ((∃ dir rsvd, decodeCmd w = .ok (.nop dir rsvd)) ↔ cmdStart w = false) ∧
    (decodeCmd w = .ok .encrypt ↔ w = 0x00000001#32) ∧
    (decodeCmd w = .ok .decrypt ↔ w = 0x00000003#32) ∧
    (decodeCmd w = .error .illegalCommand ↔ cmdStart w = true ∧ cmdRsvd w ≠ 0#30) := by
  rcases decodeCmd_cases w with ⟨hstart, h⟩ | ⟨rfl, h⟩ | ⟨rfl, h⟩ | ⟨hstart, hrsvd, h⟩
  · have henc : w ≠ 0x00000001#32 := by rintro rfl; exact absurd hstart (by decide)
    have hdec : w ≠ 0x00000003#32 := by rintro rfl; exact absurd hstart (by decide)
    simp [h, hstart, henc, hdec]
  · simp [h, cmdStart, cmdRsvd]
  · simp [h, cmdStart, cmdRsvd]
  · have henc : w ≠ 0x00000001#32 := by rintro rfl; exact hrsvd (by decide)
    have hdec : w ≠ 0x00000003#32 := by rintro rfl; exact hrsvd (by decide)
    simp [h, hstart, hrsvd, henc, hdec]

/-- The four-byte size is the one written `10` (R53). -/
theorem ofBits_eq_bytes4_iff (b : BitVec 2) : Size.ofBits b = .bytes4 ↔ b = 0b10#2 := by
  revert b; decide

/-- `ADDR[1:0]` of a listing are its bits 33:32 (R82). -/
theorem listing_addr_low (w : BitVec 41) : (w.extractLsb' 32 6).extractLsb' 0 2 = w.extractLsb' 32 2 := by
  ext i hi
  have h : i < 6 := by omega
  simp [h]

/-- R54's acceptance of the transaction a listing writes down, on the listing's own bits (R82). -/
theorem accept_listing_iff (w : BitVec 41) :
    accept ⟨w.getLsbD 40, Size.ofBits (w.extractLsb' 38 2), w.extractLsb' 32 6, w.extractLsb' 0 32⟩ = true ↔
      w.extractLsb' 38 2 = 0b10#2 ∧ w.extractLsb' 32 2 = 0b00#2 ∧ w.extractLsb' 32 6 ≤ 0x20#6 ∧
        ¬ (w.getLsbD 40 = true ∧ w.extractLsb' 32 6 = 0x04#6) := by
  rw [accept_iff, ofBits_eq_bytes4_iff, ← addr_aligned_iff, listing_addr_low, BitVec.le_def]
  rfl

/-- Settles O3: the map of CMD words, and a listing's fields with the acceptance rule on them. -/
theorem commandAndBusDecodeMap : Obligations.CommandAndBusDecodeMap :=
  ⟨decodeCmd_map, fun w =>
    ⟨Size.ofBits (w.extractLsb' 38 2), Size.toBits_ofBits _, rfl, accept_listing_iff w⟩⟩

/-- Settles O42: each pseudo-instruction of R89 is a clause of `assembleStmt`, written with the same statements. -/
theorem pseudoInstructionsExpand : Obligations.PseudoInstructionsExpand :=
  ⟨rfl, rfl, rfl, rfl, fun _ _ _ _ => rfl, fun _ _ => rfl, fun _ => rfl, fun _ _ => rfl, fun _ => rfl⟩

end Sys2Proof.Machine
end

section
/-! PROOFS. The mixing function (R103), and the count 0 (R113): no block function, no start, no buffer operation. -/

namespace Sys2Proof.Machine

/-- Settles O44: R103's formula is `mixF`'s own, and its two worked examples are evaluated. -/
theorem mixingFunction : Obligations.MixingFunction :=
  ⟨fun _ _ _ _ => rfl, by decide, by decide⟩

/-- The block function of a direction has no value exactly at the count 0 (R113). -/
theorem cipherBlock_eq_none_iff (d : Direction) (b : Word × Word) (k : Key) (n : Word) :
    cipherBlock d b k n = none ↔ n = 0#32 := by
  by_cases hn : n = 0#32 <;> simp [cipherBlock, hn]

/-- The write of a CMD word to CTRL performs its command (R56, R120). -/
theorem writeCommand_block (v : Word) (s : State) : (writeCommand v s).block = command v s.block := by
  rw [writeCommand, hostTransact_block, transact_write _ _ _ (by decide)]
  rfl

/-- A legal START word written to an idle block with ROUNDS = 0 changes its flags alone: OVR and DONE fall, and ERR reports
the count (R120, R127). -/
theorem writeCommand_block_of_zero_count {v : Word} (hstart : cmdStart v = true) (hrsvd : cmdRsvd v = 0#30) {s : State}
    (hidle : s.block.status.busy = false) (hzero : s.block.rounds = 0#32) :
    (writeCommand v s).block =
      s.block.setStatus (statusCmdError errInvalidIterationCount (statusTaken s.block.status)) := by
  rw [writeCommand_block]
  rcases command_cases v s.block with ⟨h, -⟩ | ⟨-, h, -⟩ | ⟨-, -, h, -⟩ | ⟨-, -, -, -, hcmd⟩ | ⟨-, -, -, h, -⟩
  · simp [hstart] at h
  · simp [hidle] at h
  · exact absurd hrsvd h
  · exact hcmd
  · exact absurd hzero h

/-- The checks of R154 in their order: with key and buffer right, the count 0 is the one reported (R157). -/
theorem validate_zero_count {data key : List Byte} (hkey : key.length = 16) (hdata : data.length % 8 = 0) :
    validate data key 0 = .error .invalidIterationCount := by
  simp [validate, hkey, hdata]

/-- A buffer operation answers what its validation refuses, before any block is transformed (R154). -/
theorem bufferOperation_of_validate_error {data key : List Byte} {rounds : Int} {e : BufferError}
    (h : validate data key rounds = .error e) (d : Direction) (order : ByteOrder) :
    bufferOperation d order data key rounds = .error e := by
  simp [bufferOperation, h]

/-- Settles O48: the functions have no value at 0, both commands report it, and both host procedures refuse it. -/
theorem zeroCountHasNoBlockFunction : Obligations.ZeroCountHasNoBlockFunction := by
  refine ⟨fun b k n => ⟨cipherBlock_eq_none_iff .encrypt b k n, cipherBlock_eq_none_iff .decrypt b k n⟩,
    fun s hidle hzero => ?_, fun order data key hkey hdata => ?_⟩
  · have henc := writeCommand_block_of_zero_count (v := 0x00000001#32) (by decide) (by decide) hidle hzero
    have hdec := writeCommand_block_of_zero_count (v := 0x00000003#32) (by decide) (by decide) hidle hzero
    refine ⟨writeCommand 0x00000001#32 s, writeCommand 0x00000003#32 s, rfl, ?_, rfl, ?_⟩
    · simp [henc, statusCmdError]
    · simp [henc, hdec, statusCmdError]
  · have h := validate_zero_count hkey hdata
    exact ⟨bufferOperation_of_validate_error h .encrypt order, bufferOperation_of_validate_error h .decrypt order⟩

end Sys2Proof.Machine
end

section
/-! PROOFS. The engine's step in either direction (R129, R130), with completion where it brings CNT to 0 (R131). -/

namespace Sys2Proof.Machine

/-- In the engine's turn the step is `engineTurn`, whatever the host's next statement (R9, R128). -/
theorem step_of_engine {s : State} (h : nextAgent s = .engine) : step s = .next (engineTurn s) := by
  simp [step, h]

/-- The block after one round in direction `d`, with CNT one less and completion still to come. -/
def roundDone (d : Direction) (b : Block) : Block :=
  b.setRunning (cipherRound d b.latchedKey b.running) (b.work.cnt - 1#32)

/-- One engine step is one round of the latched direction, and completes exactly when CNT was 1 (R128, R131). -/
theorem engineStep_eq_roundDone (b : Block) :
    engineStep b = if b.work.cnt = 1#32 then complete (roundDone b.work.dirL b) else roundDone b.work.dirL b := by
  split_ifs with hlast
  · rw [engineStep_last b hlast, roundDone, hlast]
    rfl
  · exact engineStep_running b hlast

/-- The engine's step: what it does to the block before the last round and in the last, and that the host stays. -/
theorem step_engine_block {s : State} (h : nextAgent s = .engine) {d : Direction} (hdir : s.block.work.dirL = d) :
    (s.block.work.cnt ≠ 1#32 →
      ∃ t, step s = .next t ∧ t.block = roundDone d s.block ∧
        t.program = s.program ∧ t.hpc = s.hpc ∧ t.log = s.log ∧ t.vars = s.vars) ∧
    (s.block.work.cnt = 1#32 →
      ∃ t, step s = .next t ∧ t.block = complete (roundDone d s.block) ∧
        t.program = s.program ∧ t.hpc = s.hpc ∧ t.log = s.log ∧ t.vars = s.vars) := by
  have hblock : (engineTurn s).block = engineStep s.block := rfl
  rw [engineStep_eq_roundDone, hdir] at hblock
  refine ⟨fun hcnt => ⟨engineTurn s, step_of_engine h, ?_, rfl, rfl, rfl, rfl⟩,
    fun hcnt => ⟨engineTurn s, step_of_engine h, ?_, rfl, rfl, rfl, rfl⟩⟩
  · rw [hblock, if_neg hcnt]
  · rw [hblock, if_pos hcnt]

/-- Settles O23: `roundDone .encrypt` is R129's assignments, written out. -/
theorem engineEncryptStep : Obligations.EngineEncryptStep := fun _ h hdir => step_engine_block h hdir

/-- Settles O24: `roundDone .decrypt` is R130's assignments, written out. -/
theorem engineDecryptStep : Obligations.EngineDecryptStep := fun _ h hdir => step_engine_block h hdir

end Sys2Proof.Machine
end

section
/-! PROOFS. The branches of `command(v)` (R120) as equations, and the commands NOP, ENCRYPT and DECRYPT with the writes
to CTRL that carry them (R121, R124 to R127). -/

namespace Sys2Proof.Machine

/-- START = 0: no effect (R121). -/
theorem command_of_not_start {v : Word} (hstart : cmdStart v = false) (b : Block) : command v b = b := by
  simp [command, hstart]

/-- START while BUSY is 1: OVR alone, before any other check (R125). -/
theorem command_of_busy {v : Word} (hstart : cmdStart v = true) {b : Block} (hbusy : b.status.busy = true) :
    command v b = b.setStatus (statusOverrun b.status) := by
  simp [command, hstart, hbusy]

/-- START while BUSY is 0: OVR and DONE fall before the command is checked (R120). -/
theorem command_of_idle {v : Word} (hstart : cmdStart v = true) {b : Block} (hidle : b.status.busy = false) :
    command v b = takeStart v (b.setStatus (statusTaken b.status)) := by
  simp [command, hstart, hidle]

/-- A command rejected while BUSY is 0 leaves its error code in ERR, every flag 0, and the rest of the block. -/
theorem raiseCmdError_taken_of_idle (code : BitVec 4) {b : Block} (hidle : b.status.busy = false) :
    raiseCmdError code (b.setStatus (statusTaken b.status)) =
      { b with status := { busy := false, done := false, ovr := false, err := code } } := by
  simp [raiseCmdError, Block.setStatus, statusCmdError, statusTaken, hidle]

/-- A reserved bit rejects the START before ROUNDS is looked at (R126). -/
theorem command_of_reserved {v : Word} (hstart : cmdStart v = true) (hrsvd : cmdRsvd v ≠ 0#30) {b : Block}
    (hidle : b.status.busy = false) :
    command v b = { b with status := { busy := false, done := false, ovr := false, err := errIllegalCommand } } := by
  rw [command_of_idle hstart hidle, takeStart, if_pos hrsvd, raiseCmdError_taken_of_idle _ hidle]

/-- ROUNDS = 0 rejects a legal START word (R127). -/
theorem command_of_zero_count {v : Word} (hstart : cmdStart v = true) (hrsvd : cmdRsvd v = 0#30) {b : Block}
    (hidle : b.status.busy = false) (hzero : b.rounds = 0#32) :
    command v b =
      { b with status := { busy := false, done := false, ovr := false, err := errInvalidIterationCount } } := by
  rw [command_of_idle hstart hidle, takeStart, if_neg (not_not_intro hrsvd), Block.setStatus_rounds, if_pos hzero,
    raiseCmdError_taken_of_idle _ hidle]

/-- A legal START word with a count starts the operation of its direction (R124). -/
theorem command_of_count {v : Word} (hstart : cmdStart v = true) (hrsvd : cmdRsvd v = 0#30) {b : Block}
    (hidle : b.status.busy = false) (hcount : b.rounds ≠ 0#32) :
    command v b = startOperation (cmdDirection v) (b.setStatus (statusTaken b.status)) := by
  rw [command_of_idle hstart hidle, takeStart, if_neg (not_not_intro hrsvd), Block.setStatus_rounds, if_neg hcount]

/-- The four-byte write of `v` to CTRL performs `command v` and logs one write (R56, R120). -/
theorem exec_wr_ctrl {v : Word} {s : State} {b : Block} (h : command v s.block = b) :
    exec (.wr .bytes4 0x00#6 v) s =
      .next { s with block := b, log := s.log ++ [⟨.write, 0x00#6, 0x00000000#32, false⟩] } := by
  have hw := transact_write .ctrl v s.block (by decide)
  rw [writeReg, h] at hw
  show Host.Outcome.next (hostTransact (writeTransaction .bytes4 (regOffset .ctrl) v) s) = _
  rw [hostTransact, hw]
  rfl

theorem exec_nop_eq_wr_ctrl (dir : BitVec 1) (rsvd : BitVec 30) (s : State) :
    exec (.nop dir rsvd) s = exec (.wr .bytes4 0x00#6 (cmdWord rsvd dir 0#1)) s := rfl

theorem exec_encrypt_eq_wr_ctrl (s : State) : exec .encrypt s = exec (.wr .bytes4 0x00#6 0x00000001#32) s := rfl

theorem exec_decrypt_eq_wr_ctrl (s : State) : exec .decrypt s = exec (.wr .bytes4 0x00#6 0x00000003#32) s := rfl

/-- Settles O13: a NOP's word has START = 0. -/
theorem nopHasNoEffect : Obligations.NopHasNoEffect := by
  intro dir rsvd s
  have hstart : cmdStart (cmdWord rsvd dir 0#1) = false := cmdStart_cmdWord rsvd dir 0#1
  have hwrite := exec_wr_ctrl (command_of_not_start hstart s.block)
  exact ⟨(exec_nop_eq_wr_ctrl dir rsvd s).trans hwrite, hwrite⟩

/-- Settles O14: both words pass the checks of R120, so each is its direction's `startOperation`. -/
theorem acceptedStartLatchesOperands : Obligations.AcceptedStartLatchesOperands := by
  intro s hidle hcount
  have henc := command_of_count (v := 0x00000001#32) rfl rfl hidle hcount
  have hdec := command_of_count (v := 0x00000003#32) rfl rfl hidle hcount
  exact ⟨(exec_encrypt_eq_wr_ctrl s).trans (exec_wr_ctrl henc), (exec_decrypt_eq_wr_ctrl s).trans (exec_wr_ctrl hdec),
    (exec_encrypt_eq_wr_ctrl s).symm, (exec_decrypt_eq_wr_ctrl s).symm⟩

/-- Settles O15: BUSY is looked at before DIR, RSVD and ROUNDS, so every START word takes the same branch. -/
theorem startWhileBusySetsOnlyOvr : Obligations.StartWhileBusySetsOnlyOvr := by
  intro s hbusy t
  have hwrite : ∀ v : Word, v.getLsbD 0 = true → exec (.wr .bytes4 0x00#6 v) s = .next t :=
    fun v hstart => exec_wr_ctrl (command_of_busy hstart hbusy)
  exact ⟨(exec_encrypt_eq_wr_ctrl s).trans (hwrite _ rfl), (exec_decrypt_eq_wr_ctrl s).trans (hwrite _ rfl), hwrite⟩

/-- Settles O16: of what an idle block checks, the reserved bits come first. -/
theorem illegalCommandIsRejected : Obligations.IllegalCommandIsRejected :=
  fun _ _ hidle hstart hrsvd => exec_wr_ctrl (command_of_reserved hstart hrsvd hidle)

/-- Settles O17: both words have no reserved bit set, so the count is what rejects them. -/
theorem zeroCountIsRejected : Obligations.ZeroCountIsRejected := by
  intro s hidle hzero t
  have henc : exec (.wr .bytes4 0x00#6 0x00000001#32) s = .next t :=
    exec_wr_ctrl (command_of_zero_count rfl rfl hidle hzero)
  have hdec : exec (.wr .bytes4 0x00#6 0x00000003#32) s = .next t :=
    exec_wr_ctrl (command_of_zero_count rfl rfl hidle hzero)
  exact ⟨(exec_encrypt_eq_wr_ctrl s).trans henc, (exec_decrypt_eq_wr_ctrl s).trans hdec, henc, hdec⟩

end Sys2Proof.Machine
end

section
/-! PROOFS. The checks of a buffer operation in their order (R154, R156, R157), the buffer it gives when all of them pass,
and the empty buffer (R159). -/

namespace Sys2Proof.Machine

section Validate
variable {data key : List Byte} {rounds : Int}

/-- The key length is checked first (R156). -/
theorem validate_of_key_length (hkey : key.length ≠ 16) : validate data key rounds = .error .invalidKeyLength :=
  if_pos hkey

/-- The buffer length is checked after the key (R156). -/
theorem validate_of_buffer_length (hkey : key.length = 16) (hdata : data.length % 8 ≠ 0) :
    validate data key rounds = .error .invalidBufferLength := by
  rw [validate, if_neg (not_not_intro hkey), if_pos hdata]

/-- The count is checked last (R157). -/
theorem validate_of_count (hkey : key.length = 16) (hdata : data.length % 8 = 0)
    (hcount : rounds < 1 ∨ 2 ^ 32 - 1 < rounds) : validate data key rounds = .error .invalidIterationCount := by
  rw [validate, if_neg (not_not_intro hkey), if_neg (not_not_intro hdata), if_pos hcount]

/-- Operands that pass every check of R154. -/
theorem validate_ok (hkey : key.length = 16) (hdata : data.length % 8 = 0) (hlow : 1 ≤ rounds)
    (hhigh : rounds ≤ 2 ^ 32 - 1) : validate data key rounds = .ok () := by
  have hcount : ¬ (rounds < 1 ∨ 2 ^ 32 - 1 < rounds) := by omega
  rw [validate, if_neg (not_not_intro hkey), if_neg (not_not_intro hdata), if_neg hcount]

/-- A validated count is not 0 as the 32-bit count of the block function (R113, R157). -/
theorem ofInt_count_ne_zero (hlow : 1 ≤ rounds) (hhigh : rounds ≤ 2 ^ 32 - 1) : BitVec.ofInt 32 rounds ≠ 0#32 := by
  intro hzero
  have hnat := congrArg BitVec.toNat hzero
  rw [BitVec.toNat_ofInt, BitVec.toNat_zero] at hnat
  omega

/-- Operands that pass the checks give the bytes of the transformed blocks, in order (R154, R155). -/
theorem bufferOperation_of_validate_ok {d : Direction} {order : ByteOrder} {out : List (Word × Word)}
    (h : validate data key rounds = .ok ())
    (hout : cipherBlocks d (keyOfBytes order key) (BitVec.ofInt 32 rounds) (blocksOfBytes order data) = some out) :
    bufferOperation d order data key rounds = .ok (out.flatMap (blockBytes order)) := by
  simp [bufferOperation, h, hout]

/-- The program of a buffer operation is refused by the same checks (R160). -/
theorem bufferProcedure_of_validate_error {e : BufferError} (h : validate data key rounds = .error e) (d : Direction)
    (order : ByteOrder) : bufferProcedure d order data key rounds = .error e := by
  simp [bufferProcedure, h]

/-- No block, no transaction (R159). -/
theorem bufferProcedure_nil (h : validate [] key rounds = .ok ()) (d : Direction) (order : ByteOrder) :
    bufferProcedure d order [] key rounds = .ok [] := by
  rw [bufferProcedure, h]
  rfl

end Validate

/-- With a count, every block has its block function, so every list of blocks is transformed block by block (R154). -/
theorem cipherBlocks_of_count {n : Word} (hn : n ≠ 0#32) (d : Direction) (k : Key) (l : List (Word × Word)) :
    ∃ out, cipherBlocks d k n l = some out ∧ List.Forall₂ (fun b c => cipherBlock d b k n = some c) l out := by
  induction l with
  | nil => exact ⟨[], rfl, .nil⟩
  | cons b l ih =>
    obtain ⟨c, hc⟩ := Option.ne_none_iff_exists'.1 (mt (cipherBlock_eq_none_iff d b k n).1 hn)
    obtain ⟨cs, hcs, hblocks⟩ := ih
    exact ⟨c :: cs, by simp [cipherBlocks, hc, hcs], .cons hc hblocks⟩

@[simp] theorem unpackWord_length (order : ByteOrder) (w : Word) : (unpackWord order w).length = 4 := by
  cases order <;> rfl

@[simp] theorem blockBytes_length (order : ByteOrder) (b : Word × Word) : (blockBytes order b).length = 8 := by
  simp [blockBytes]

@[simp] theorem blocksOfBytes_length (order : ByteOrder) (data : List Byte) :
    (blocksOfBytes order data).length = data.length / 8 := by
  simp [blocksOfBytes]

/-- With valid operands there is a result, of the buffer's own length (R154). -/
theorem bufferOperation_ok {data key : List Byte} {rounds : Int} (hkey : key.length = 16) (hdata : data.length % 8 = 0)
    (hlow : 1 ≤ rounds) (hhigh : rounds ≤ 2 ^ 32 - 1) (d : Direction) (order : ByteOrder) :
    ∃ out, bufferOperation d order data key rounds = .ok out ∧ out.length = data.length := by
  obtain ⟨out, hout, hblocks⟩ := cipherBlocks_of_count (ofInt_count_ne_zero hlow hhigh) d (keyOfBytes order key)
    (blocksOfBytes order data)
  refine ⟨_, bufferOperation_of_validate_ok (validate_ok hkey hdata hlow hhigh) hout, ?_⟩
  have hlen : data.length / 8 = out.length := blocksOfBytes_length order data ▸ hblocks.length_eq
  calc (out.flatMap (blockBytes order)).length
    _ = out.length * 8 := by simp [List.length_flatMap]
    _ = data.length := by omega

/-- Settles O50: one row of `validate` per error, and `bufferOperation_ok` when none applies. -/
theorem bufferValidationOrder : Obligations.BufferValidationOrder := fun order _ _ _ d =>
  ⟨fun hkey => bufferOperation_of_validate_error (validate_of_key_length hkey) d order,
    fun hkey hdata => bufferOperation_of_validate_error (validate_of_buffer_length hkey hdata) d order,
    fun hkey hdata hcount => bufferOperation_of_validate_error (validate_of_count hkey hdata hcount) d order,
    fun hkey hdata hlow hhigh => bufferOperation_ok hkey hdata hlow hhigh d order⟩

/-- Settles O53: a buffer of no blocks gives no bytes and the empty program; the checks of key and count stand. -/
theorem emptyBufferIsValid : Obligations.EmptyBufferIsValid := by
  intro order key rounds d
  refine ⟨fun hkey hlow hhigh => ?_, fun hkey => ?_, fun hkey hcount => ?_⟩
  · have h : validate [] key rounds = .ok () := validate_ok hkey rfl hlow hhigh
    exact ⟨bufferOperation_of_validate_ok (out := []) h rfl, [], bufferProcedure_nil h d order,
      fun _ _ => ⟨List.not_mem_nil, List.not_mem_nil⟩⟩
  · have h : validate [] key rounds = .error .invalidKeyLength := validate_of_key_length hkey
    exact ⟨bufferOperation_of_validate_error h d order, bufferProcedure_of_validate_error h d order⟩
  · have h : validate [] key rounds = .error .invalidIterationCount := validate_of_count hkey rfl hcount
    exact ⟨bufferOperation_of_validate_error h d order, bufferProcedure_of_validate_error h d order⟩

end Sys2Proof.Machine
end

section
/-! PROOFS. The host's RESET step from any state in which the host moves, and the reads after a reset (R200). -/

namespace Sys2Proof.Machine

/-- In the host's turn a fetched RESET is `resetTurn`, after the schedule is charged for the turn (R135, R200). -/
theorem step_of_reset {s : State} (hhost : nextAgent s = .host) (hfetch : fetch s = some .reset) :
    step s = .next (resetTurn (takeHostTurn s)) := by
  simp [step, hhost, hostTurn, hfetch]

@[simp] theorem resetTurn_block (s : State) : (resetTurn s).block = Block.reset := rfl
@[simp] theorem resetTurn_hpc (s : State) : (resetTurn s).hpc = s.hpc + 1 := rfl
@[simp] theorem resetTurn_program (s : State) : (resetTurn s).program = s.program := rfl
@[simp] theorem resetTurn_log (s : State) : (resetTurn s).log = s.log := rfl
@[simp] theorem resetTurn_vars (s : State) : (resetTurn s).vars = s.vars := rfl

/-- After a reset ROUNDS reads 0x20 and every other register 0; of STATUS, because every field of it is 0 (R200). -/
theorem readReg_reset (r : Reg) :
    readReg r Block.reset = if r = .rounds then 0x00000020#32 else 0x00000000#32 := by
  cases r <;> decide

/-- Settles O20: the RESET step is `resetTurn` on a state that differs in its schedule alone, and a read after it logs what
`readReg_reset` says. -/
theorem resetSetsEveryValue : Obligations.ResetSetsEveryValue := by
  refine ⟨rfl, fun s hhost hfetch => ?_, fun s r v hfresh => ?_⟩
  · exact ⟨resetTurn (takeHostTurn s), step_of_reset hhost hfetch, resetTurn_block _, by simp, by simp, by simp, by simp⟩
  · have hreset : s.block = Block.reset := hfresh
    rw [exec_rd_regOffset, hreset, readReg_reset]

end Sys2Proof.Machine
end

section
/-! PROOFS. The encoder and the decoder undo each other, in both formats (R81, R82, R84), the listing of a four-byte
transaction as a number (R82), and a CMD instruction as the write of its word to CTRL (R80, R87). -/

namespace Sys2Proof.Machine

/-- A bit as the one-bit field of a word that it is (R81, R82). -/
theorem extractLsb'_one_eq_ofBool {w : Nat} (x : BitVec w) (i : Nat) :
    x.extractLsb' i 1 = BitVec.ofBool (x.getLsbD i) := by
  ext j hj
  obtain rfl : j = 0 := by omega
  simp

/-- A CMD word with START = 0 decodes to the NOP of its ignored bits (R84). -/
theorem decodeCmd_cmdWord_nop (rsvd : BitVec 30) (dir : BitVec 1) :
    decodeCmd (cmdWord rsvd dir 0#1) = .ok (.nop dir rsvd) := by
  have hstart : cmdStart (cmdWord rsvd dir 0#1) = false := cmdStart_cmdWord rsvd dir 0#1
  rw [decodeCmd, if_pos hstart, cmdDirBit_cmdWord, cmdRsvd_cmdWord]

/-- A listing decodes by its WE to the transaction of its own fields (R82). -/
theorem decodeBus_busWord (we : BitVec 1) (size : Size) (addr : Addr) (v : Word) :
    decodeBus (busWord we size addr v) = if we.getLsbD 0 then .wr size addr v else .rd size addr v := by
  simp only [decodeBus, busWord_we, busWord_size, busWord_addr, busWord_wdata, Size.ofBits_toBits]

theorem decode_encode (i : Instr) : decode (encode i) = .ok i := by
  cases i with
  | nop dir rsvd => exact decodeCmd_cmdWord_nop rsvd dir
  | encrypt => rfl
  | decrypt => rfl
  | rd size addr v => exact congrArg Except.ok (decodeBus_busWord 0#1 size addr v)
  | wr size addr v => exact congrArg Except.ok (decodeBus_busWord 1#1 size addr v)

/-- Settles O1: field by field, what the encoder puts into a word is what the decoder takes out. -/
theorem decodeAfterEncodeIsIdentity : Obligations.DecodeAfterEncodeIsIdentity := decode_encode

/-- A CMD word that decodes is the encoding of what it decodes to: the NOP keeps its ignored bits (R81). -/
theorem encode_of_decodeCmd {w : Word} {i : Instr} (h : decodeCmd w = .ok i) : encode i = .cmd w := by
  rcases decodeCmd_cases w with ⟨hstart, hw⟩ | ⟨rfl, hw⟩ | ⟨rfl, hw⟩ | ⟨-, -, hw⟩ <;> rw [hw] at h
  · obtain rfl := Except.ok.inj h
    have hfields := cmdWord_fields w
    have hbit : w.extractLsb' 0 1 = 0#1 := by
      rw [extractLsb'_one_eq_ofBool, ← cmdStart, hstart]
      rfl
    rw [hbit] at hfields
    exact congrArg Encoded.cmd hfields
  · obtain rfl := Except.ok.inj h
    rfl
  · obtain rfl := Except.ok.inj h
    rfl
  · nomatch h

/-- Every listing is the encoding of the transaction it decodes to (R82). -/
theorem encode_decodeBus (w : BitVec 41) : encode (decodeBus w) = .bus w := by
  have hfields := busWord_fields w
  rw [extractLsb'_one_eq_ofBool] at hfields
  cases hwe : w.getLsbD 40 <;> rw [hwe] at hfields
  · rw [decodeBus, hwe]
    exact congrArg Encoded.bus hfields
  · rw [decodeBus, hwe]
    exact congrArg Encoded.bus hfields

theorem encode_of_decode {e : Encoded} {i : Instr} (h : decode e = .ok i) : encode i = e := by
  cases e with
  | cmd w => exact encode_of_decodeCmd h
  | bus w =>
    obtain rfl := Except.ok.inj h
    exact encode_decodeBus w

/-- Settles O2: a word is put together again from the fields its instruction holds, in either format. -/
theorem encodeAfterDecodeIsIdentity : Obligations.EncodeAfterDecodeIsIdentity := fun _ _ => encode_of_decode

/-- Settles O4: each word is decoded by evaluation. -/
theorem sampleWordsDecode : Obligations.SampleWordsDecode := by
  unfold Obligations.SampleWordsDecode
  decide

/-- The value of a listing is the sum of its fields, each at its place (R82). -/
theorem toNat_busWord (we : BitVec 1) (size : Size) (addr : Addr) (v : Word) :
    (busWord we size addr v).toNat =
      (we.toNat * 0x100 + size.toBits.toNat * 0x40 + addr.toNat) * 2 ^ 32 + v.toNat := by
  have hwe : (busWord we size addr v).extractLsb' 40 1 = we := by
    rw [extractLsb'_one_eq_ofBool, busWord_we]
    revert we; decide
  have hwe := congrArg BitVec.toNat hwe
  have hsize := congrArg BitVec.toNat (busWord_size we size addr v)
  have haddr := congrArg BitVec.toNat (busWord_addr we size addr v)
  have hv := congrArg BitVec.toNat (busWord_wdata we size addr v)
  have hlt := (busWord we size addr v).isLt
  simp only [BitVec.extractLsb'_toNat, Nat.shiftRight_eq_div_pow] at hwe hsize haddr hv
  omega

/-- Settles O5: `SIZE` = `10` is 0x080 of the upper part, and WE = 1 adds 0x100 (R82). -/
theorem listingUpperPart : Obligations.ListingUpperPart := fun addr v =>
  ⟨⟨busWord 0#1 .bytes4 addr v, rfl, toNat_busWord 0#1 .bytes4 addr v⟩,
    ⟨busWord 1#1 .bytes4 addr v, rfl, toNat_busWord 1#1 .bytes4 addr v⟩⟩

/-- An instruction of the CMD format is the four-byte write of its word to CTRL (R80, R87). -/
theorem instrTransaction_of_encode_cmd {i : Instr} {w : Word} (h : encode i = .cmd w) :
    instrTransaction i = writeTransaction .bytes4 (regOffset .ctrl) w := by
  cases i with
  | nop dir rsvd => exact Encoded.cmd.inj h ▸ rfl
  | encrypt => exact Encoded.cmd.inj h ▸ rfl
  | decrypt => exact Encoded.cmd.inj h ▸ rfl
  | rd size addr v => nomatch h
  | wr size addr v => nomatch h

/-- Settles O18: a CMD word that decodes is the encoding of its instruction, so both sides are one transaction. -/
theorem commandIsItsCtrlWrite : Obligations.CommandIsItsCtrlWrite := by
  intro w i s h
  rw [exec_eq, exec_eq, instrTransaction_of_encode_cmd (encode_of_decode h)]
  rfl

end Sys2Proof.Machine
end

section
/-! PROOFS. What writes and reads do to the block (R55, R56, R60), and the frame of every instruction (R38, R59). -/

namespace Sys2Proof.Machine

/-- A four-byte WR at a register's offset writes the register, or performs the command, and logs the write (R56). -/
theorem exec_wr_regOffset (r : Reg) (hr : r ≠ .status) (v : Word) (s : State) :
    exec (.wr .bytes4 (regOffset r) v) s =
      .next { s with
        block := writeReg r v s.block
        log := s.log ++ [⟨.write, regOffset r, 0x00000000#32, false⟩] } := by
  rw [exec_eq, instrTransaction, hostTransact, transact_write r v s.block hr]
  rfl

/-- STATUS takes no host write, of whatever value (R24, R54). -/
theorem accept_status_write (v : Word) : accept ⟨true, .bytes4, regOffset .status, v⟩ = false := by
  rw [accept, busErrorCause_of_status_write rfl rfl rfl]
  rfl

/-- Settles O9: one write per register of R51, and the refused writes, that to STATUS among them. -/
theorem writeStoresRegister : Obligations.WriteStoresRegister := fun s v =>
  ⟨exec_wr_regOffset .ctrl (by decide) v s, exec_wr_refused (accept_status_write v) s,
    exec_wr_regOffset .rounds (by decide) v s, exec_wr_regOffset .key0 (by decide) v s,
    exec_wr_regOffset .key1 (by decide) v s, exec_wr_regOffset .key2 (by decide) v s,
    exec_wr_regOffset .key3 (by decide) v s, exec_wr_regOffset .data0 (by decide) v s,
    exec_wr_regOffset .data1 (by decide) v s,
    fun _ _ h => exec_wr_refused h s⟩

/-- No read changes the block, accepted or not (R55, R60). -/
@[simp] theorem transact_readTransaction_block (size : Size) (addr : Addr) (v : Word) (b : Block) :
    (transact (readTransaction size addr v) b).2 = b := by
  rcases transact_block_cases (readTransaction size addr v) b with h | ⟨hwe, -⟩ | ⟨_, -, -, hwe, -⟩
  · exact h
  · nomatch hwe
  · nomatch hwe

/-- Settles O10: the second read meets the block of the first, so it gets the same response. -/
theorem readsLeaveBlockAlone : Obligations.ReadsLeaveBlockAlone := by
  intro size addr v s
  have hblock : ∀ u : State, (hostTransact (readTransaction size addr v) u).block = u.block :=
    fun u => transact_readTransaction_block size addr v u.block
  exact ⟨_, _, _, exec_eq _ _, exec_eq _ _, hblock s, (hblock _).trans (hblock s), rfl, by simp [instrTransaction]⟩

theorem regOffset_injective {r q : Reg} (h : regOffset r = regOffset q) : r = q := by
  have hat := congrArg regAt h
  simpa using hat

theorem storeReg_storeReg (r : Reg) (v : Word) (b : Block) : storeReg r v (storeReg r v b) = storeReg r v b := by
  cases r <;> rfl

/-- A transaction anywhere but at CTRL changes nothing more when it is made again (R60). -/
theorem transact_twice {t : Transaction} (ht : t.addr ≠ regOffset .ctrl) (b : Block) :
    (transact t (transact t b).2).2 = (transact t b).2 := by
  rcases transact_block_cases t b with h | ⟨-, -, hctrl, -⟩ | ⟨r, -, -, -, hr, h⟩
  · rw [h, h]
  · exact absurd hctrl ht
  · rcases transact_block_cases t (transact t b).2 with h' | ⟨-, -, hctrl, -⟩ | ⟨q, -, -, -, hq, h'⟩
    · exact h'
    · exact absurd hctrl ht
    · obtain rfl := regOffset_injective (hr.symm.trans hq)
      rw [h', h, storeReg_storeReg]

/-- An accepted start sets BUSY, so the same word written again is a START while BUSY is 1: it sets OVR (R124, R125). -/
theorem command_twice_of_count {v : Word} (hstart : cmdStart v = true) (hrsvd : cmdRsvd v = 0#30) {b : Block}
    (hidle : b.status.busy = false) (hcount : b.rounds ≠ 0#32) :
    (command v b).status.ovr = false ∧
    command v (command v b) = (command v b).setStatus (statusOverrun (command v b).status) := by
  have hbusy : (command v b).status.busy = true := by
    rw [command_of_count hstart hrsvd hidle hcount]
    rfl
  refine ⟨?_, command_of_busy hstart hbusy⟩
  rw [command_of_count hstart hrsvd hidle hcount]
  rfl

/-- Settles O11: a write elsewhere stores the same value again; the second of two STARTs finds BUSY = 1. -/
theorem onlyCommandWritesAreNotIdempotent : Obligations.OnlyCommandWritesAreNotIdempotent := by
  refine ⟨fun size addr v s haddr => ?_, fun s hidle hcount => ?_⟩
  · let tr := writeTransaction size addr v
    exact ⟨hostTransact tr s, hostTransact tr (hostTransact tr s), exec_eq _ _, exec_eq _ _,
      transact_twice (t := tr) haddr s.block⟩
  · obtain ⟨hovr, htwice⟩ := command_twice_of_count (v := 0x00000001#32) rfl rfl hidle hcount
    exact ⟨_, _, exec_wr_ctrl rfl, exec_wr_ctrl rfl, hovr, htwice⟩

/-- A transaction other than a START written to CTRL touches neither the working state nor STATUS (R38). -/
theorem transact_keeps_work_and_status {t : Transaction}
    (h : ¬ (t.we = true ∧ t.size = .bytes4 ∧ t.addr = regOffset .ctrl ∧ cmdStart t.wdata = true)) (b : Block) :
    (transact t b).2.work = b.work ∧ (transact t b).2.status = b.status := by
  rcases transact_block_cases t b with hb | ⟨hwe, hsize, haddr, hb⟩ | ⟨r, -, -, -, -, hb⟩
  · simp [hb]
  · have hstart : cmdStart t.wdata = false := Bool.eq_false_of_not_eq_true fun hs => h ⟨hwe, hsize, haddr, hs⟩
    simp [hb, command_of_not_start hstart]
  · simp [hb]

/-- Only ENCRYPT, DECRYPT and a four-byte WR at CTRL can be a START written to CTRL. -/
theorem instrTransaction_not_start {i : Instr} (hwr : ∀ v, i ≠ .wr .bytes4 0x00#6 v) (henc : i ≠ .encrypt)
    (hdec : i ≠ .decrypt) :
    ¬ ((instrTransaction i).we = true ∧ (instrTransaction i).size = .bytes4 ∧
      (instrTransaction i).addr = regOffset .ctrl ∧ cmdStart (instrTransaction i).wdata = true) := by
  rintro ⟨hwe, hsize, haddr, hstart⟩
  cases i with
  | nop dir rsvd => exact Bool.false_ne_true ((cmdStart_cmdWord rsvd dir 0#1).symm.trans hstart)
  | encrypt => exact henc rfl
  | decrypt => exact hdec rfl
  | rd size addr v => nomatch hwe
  | wr size addr v =>
    obtain rfl : size = .bytes4 := hsize
    obtain rfl : addr = 0x00#6 := haddr
    exact hwr v rfl

/-- Settles O12: an instruction is one transaction, and the host's part of it is one log entry. -/
theorem everyInstructionCompletesWithFrame : Obligations.EveryInstructionCompletesWithFrame := fun i s =>
  ⟨hostTransact (instrTransaction i) s, exec_eq i s, ⟨rfl, rfl, rfl, rfl, rfl, rfl⟩, ⟨_, rfl⟩,
    fun hwr henc hdec => transact_keeps_work_and_status (instrTransaction_not_start hwr henc hdec) s.block⟩

end Sys2Proof.Machine
end

section
/-! PROOFS. The rounds of the two directions undo each other, their sums, and the block functions as inverse bijections
(R109 to R111, R115). -/

namespace Sys2Proof.Machine

/-- The other direction. -/
def opposite : Direction → Direction
  | .encrypt => .decrypt
  | .decrypt => .encrypt

theorem decryptRound_encryptRound (k : Key) (h : Halves) : decryptRound k (encryptRound k h) = h := by
  simp [decryptRound, encryptRound]

theorem encryptRound_decryptRound (k : Key) (h : Halves) : encryptRound k (decryptRound k h) = h := by
  simp [decryptRound, encryptRound]

/-- A round of the opposite direction undoes a round. -/
theorem cipherRound_opposite (d : Direction) (k : Key) (h : Halves) :
    cipherRound (opposite d) k (cipherRound d k h) = h := by
  cases d with
  | encrypt => exact decryptRound_encryptRound k h
  | decrypt => exact encryptRound_decryptRound k h

/-- Any number of rounds of the opposite direction undoes as many rounds. -/
theorem cipherRounds_opposite (d : Direction) (k : Key) (n : Nat) (h : Halves) :
    cipherRounds (opposite d) k n (cipherRounds d k n h) = h :=
  Function.LeftInverse.iterate (cipherRound_opposite d k) n h

/-- Settles O45: each half comes back because `mixF` is subtracted at the arguments it was added at. -/
theorem decryptRoundUndoesEncryptRound : Obligations.DecryptRoundUndoesEncryptRound :=
  fun k v0 v1 sum => decryptRound_encryptRound k ⟨v0, v1, sum⟩

/-- Encryption adds DELTA in each round (R105). -/
theorem encrypt_rounds_sum (k : Key) (h : Halves) (i : Nat) :
    (cipherRounds .encrypt k i h).sum = h.sum + delta * BitVec.ofNat 32 i := by
  induction i with
  | zero => simp
  | succ i ih =>
    rw [cipherRounds_succ', cipherRound, encryptRound_sum, ih, BitVec.ofNat_add, BitVec.mul_add, BitVec.mul_one,
      BitVec.add_assoc]

/-- Decryption subtracts DELTA in each round (R107). -/
theorem decrypt_rounds_sum (k : Key) (h : Halves) (i : Nat) :
    (cipherRounds .decrypt k i h).sum = h.sum - delta * BitVec.ofNat 32 i := by
  induction i with
  | zero => simp
  | succ i ih =>
    rw [cipherRounds_succ', cipherRound, decryptRound_sum, ih, BitVec.ofNat_add, BitVec.mul_add, BitVec.mul_one,
      BitVec.sub_sub]

/-- DELTA * n with DELTA * i taken away is DELTA times the difference. -/
theorem delta_mul_sub (n : Word) {i : Nat} (hi : i ≤ n.toNat) :
    delta * n - delta * BitVec.ofNat 32 i = delta * BitVec.ofNat 32 (n.toNat - i) := by
  have hn : n = BitVec.ofNat 32 (n.toNat - i) + BitVec.ofNat 32 i := by
    rw [← BitVec.ofNat_add, Nat.sub_add_cancel hi, BitVec.ofNat_toNat, BitVec.setWidth_eq]
  calc delta * n - delta * BitVec.ofNat 32 i
    _ = delta * (BitVec.ofNat 32 (n.toNat - i) + BitVec.ofNat 32 i) - delta * BitVec.ofNat 32 i := by rw [← hn]
    _ = delta * BitVec.ofNat 32 (n.toNat - i) := by rw [BitVec.mul_add, BitVec.add_sub_cancel]

/-- After all its rounds an operation's sum is the one the opposite direction starts from (R109). -/
theorem cipherRounds_final_sum (d : Direction) (k : Key) (v0 v1 n : Word) :
    (cipherRounds d k n.toNat ⟨v0, v1, startSum d n⟩).sum = startSum (opposite d) n := by
  cases d with
  | encrypt => simp [encrypt_rounds_sum, startSum, opposite]
  | decrypt => simp [decrypt_rounds_sum, startSum, opposite]

/-- Settles O46: the sums of both directions after any number of rounds, with the start sums put in. -/
theorem sumProgression : Obligations.SumProgression := by
  intro k v0 v1 n _
  refine ⟨fun i _ => ?_, fun j hj => ?_, cipherRounds_final_sum .encrypt k v0 v1 n,
    cipherRounds_final_sum .decrypt k v0 v1 n⟩
  · simp [encrypt_rounds_sum, startSum]
  · rw [decrypt_rounds_sum, startSum, delta_mul_sub n hj.le, Nat.sub_add_eq, Nat.sub_add_cancel (by omega)]

/-- With a count the block function is that many rounds from the start sum (R106, R108). -/
theorem cipherBlock_of_count {n : Word} (hn : n ≠ 0#32) (d : Direction) (b : Word × Word) (k : Key) :
    cipherBlock d b k n =
      some ((cipherRounds d k n.toNat ⟨b.1, b.2, startSum d n⟩).v0,
        (cipherRounds d k n.toNat ⟨b.1, b.2, startSum d n⟩).v1) := by
  rw [cipherBlock, if_neg hn]

/-- The block function of the opposite direction gives the block back: its rounds start from the very halves and sum the
first one's end with (R111). -/
theorem cipherBlock_opposite {d : Direction} {b c : Word × Word} {k : Key} {n : Word}
    (h : cipherBlock d b k n = some c) : cipherBlock (opposite d) c k n = some b := by
  have hn : n ≠ 0#32 := fun h0 => by simp [cipherBlock, h0] at h
  rw [cipherBlock_of_count hn] at h
  obtain rfl := Option.some.inj h
  rw [cipherBlock_of_count hn]
  dsimp only
  rw [← cipherRounds_final_sum d k b.1 b.2 n, cipherRounds_opposite]

theorem opposite_opposite (d : Direction) : opposite (opposite d) = d := by cases d <;> rfl

theorem cipherBlock_eq_some_iff_opposite {d : Direction} {b c : Word × Word} {k : Key} {n : Word} :
    cipherBlock d b k n = some c ↔ cipherBlock (opposite d) c k n = some b :=
  ⟨cipherBlock_opposite, fun h => opposite_opposite d ▸ cipherBlock_opposite h⟩

/-- With a count, every block has an image, which the opposite direction takes back. -/
theorem cipherBlock_round_trip {n : Word} (hn : n ≠ 0#32) (d : Direction) (b : Word × Word) (k : Key) :
    ∃ c, cipherBlock d b k n = some c ∧ cipherBlock (opposite d) c k n = some b :=
  ⟨_, cipherBlock_of_count hn d b k, cipherBlock_opposite (cipherBlock_of_count hn d b k)⟩

/-- With a count, every block is the image of exactly one: its own image under the opposite direction. -/
theorem cipherBlock_existsUnique_preimage {n : Word} (hn : n ≠ 0#32) (d : Direction) (b : Word × Word) (k : Key) :
    ∃! c, cipherBlock d c k n = some b :=
  have himage := cipherBlock_of_count hn (opposite d) b k
  ⟨_, cipherBlock_eq_some_iff_opposite.2 himage, fun _ hc =>
    Option.some.inj ((cipherBlock_eq_some_iff_opposite.1 hc).symm.trans himage)⟩

/-- Settles O47: both directions take each other's images back, and so have one preimage each. -/
theorem blockFunctionsAreInverse : Obligations.BlockFunctionsAreInverse := fun b k _ hn =>
  ⟨cipherBlock_round_trip hn .encrypt b k, cipherBlock_round_trip hn .decrypt b k,
    cipherBlock_existsUnique_preimage hn .encrypt b k, cipherBlock_existsUnique_preimage hn .decrypt b k⟩

end Sys2Proof.Machine
end

section
/-! PROOFS. The engine by itself: an operation's CNT engine steps as rounds, the collapsed engine (R133, R134), the
result an accepted start is bound for (R132), and what a read sees of an engine step (R21). -/

namespace Sys2Proof.Machine

@[simp] theorem roundDone_status (d : Direction) (b : Block) : (roundDone d b).status = b.status := rfl
@[simp] theorem roundDone_cnt (d : Direction) (b : Block) : (roundDone d b).work.cnt = b.work.cnt - 1#32 := rfl

/-- Before its last round the engine's step is the round alone (R129, R130). -/
theorem engineStep_of_more {b : Block} (h : b.work.cnt ≠ 1#32) : engineStep b = roundDone b.work.dirL b := by
  rw [engineStep_eq_roundDone, if_neg h]

/-- The step of the last round completes the operation as well (R131). -/
theorem engineStep_of_last {b : Block} (h : b.work.cnt = 1#32) : engineStep b = complete (roundDone b.work.dirL b) := by
  rw [engineStep_eq_roundDone, if_pos h]

/-- The block when `k` rounds of a running operation are done and none has completed it. -/
def roundsDone (k : Nat) (b : Block) : Block :=
  b.setRunning (cipherRounds b.work.dirL b.latchedKey k b.running) (b.work.cnt - BitVec.ofNat 32 k)

theorem roundsDone_cnt {k : Nat} {b : Block} (hk : k < b.work.cnt.toNat) :
    (roundsDone k b).work.cnt.toNat = b.work.cnt.toNat - k := by
  have hlt := b.work.cnt.isLt
  simp only [roundsDone, Block.setRunning_work_cnt]
  bv_omega

theorem roundDone_roundsDone (k : Nat) (b : Block) :
    roundDone (roundsDone k b).work.dirL (roundsDone k b) = roundsDone (k + 1) b := by
  have hcnt : b.work.cnt - BitVec.ofNat 32 (k + 1) = (b.work.cnt - BitVec.ofNat 32 k) - 1#32 := by
    rw [BitVec.ofNat_add, BitVec.sub_sub]
  rw [roundsDone.eq_def (k + 1), hcnt, cipherRounds_succ']
  rfl

/-- Fewer than CNT engine steps are as many rounds, and no completion (R134). -/
theorem engineStep_iterate_of_lt {k : Nat} {b : Block} (hk : k < b.work.cnt.toNat) :
    engineStep^[k] b = roundsDone k b := by
  induction k with
  | zero => simp [roundsDone, Block.setRunning, Block.running]
  | succ k ih =>
    have hk' : k < b.work.cnt.toNat := by omega
    have hmore : (roundsDone k b).work.cnt ≠ 1#32 := fun h1 => by
      have hcnt := roundsDone_cnt hk'
      rw [h1, BitVec.toNat_ofNat] at hcnt
      omega
    rw [Function.iterate_succ_apply', ih hk', engineStep_of_more hmore, roundDone_roundsDone]

/-- All CNT engine steps together are the collapsed engine's one step: the last brings CNT to 0 (R131, R133). -/
theorem engineStep_iterate_cnt {b : Block} (hcnt : b.work.cnt ≠ 0#32) :
    engineStep^[b.work.cnt.toNat] b = collapsedStep b := by
  obtain ⟨k, hk⟩ : ∃ k, b.work.cnt.toNat = k + 1 := Nat.exists_eq_succ_of_ne_zero (by bv_omega)
  have hlast : (roundsDone k b).work.cnt = 1#32 := by
    have h := roundsDone_cnt (k := k) (b := b) (by omega)
    bv_omega
  have hzero : b.work.cnt - BitVec.ofNat 32 (k + 1) = 0#32 := by rw [← hk]; simp
  rw [hk, Function.iterate_succ_apply', engineStep_iterate_of_lt (by omega), engineStep_of_last hlast,
    roundDone_roundsDone, roundsDone, hzero, ← hk]
  rfl

/-- Settles O28: before the last of the CNT steps only rounds are done, and all of them together complete. -/
theorem operationTakesExactlyCntEngineSteps : Obligations.OperationTakesExactlyCntEngineSteps := by
  intro b hbusy hcnt
  rw [engineStep_iterate_cnt hcnt]
  refine ⟨fun k hk => ?_, rfl, rfl⟩
  rw [engineStep_iterate_of_lt hk]
  exact ⟨hbusy, roundsDone_cnt hk⟩

/-- Settles O29. -/
theorem collapsedEngineAgrees : Obligations.CollapsedEngineAgrees := fun _ _ hcnt => engineStep_iterate_cnt hcnt

theorem pendingResult_of_busy {b : Block} (hbusy : b.status.busy = true) :
    pendingResult b = some ((remainingRounds b).v0, (remainingRounds b).v1) := by
  rw [pendingResult, if_pos hbusy]

/-- The pending result is a matter of BUSY and the working state alone: no register enters (R37). -/
theorem pendingResult_congr {b b' : Block} (hwork : b'.work = b.work) (hbusy : b'.status.busy = b.status.busy) :
    pendingResult b' = pendingResult b := by
  simp [pendingResult, remainingRounds, Block.latchedKey, Block.running, hwork, hbusy]

/-- An engine step of a running operation leaves what it is bound for, or completes by writing exactly that (R132). -/
theorem engineStep_pendingResult {b : Block} (hbusy : b.status.busy = true) (hcnt : b.work.cnt ≠ 0#32) :
    ((engineStep b).status.busy = true ∧ (engineStep b).work.cnt ≠ 0#32 ∧
      pendingResult (engineStep b) = pendingResult b) ∨
    ((engineStep b).status.busy = false ∧ (engineStep b).status.done = true ∧
      pendingResult b = some ((engineStep b).data0, (engineStep b).data1)) := by
  by_cases hlast : b.work.cnt = 1#32
  · rw [engineStep_of_last hlast, pendingResult_of_busy hbusy, remainingRounds, hlast]
    exact .inr ⟨rfl, rfl, rfl⟩
  · rw [engineStep_of_more hlast]
    refine .inl ⟨hbusy, fun h0 => hlast ?_, ?_⟩
    · rw [roundDone_cnt] at h0
      bv_omega
    · rw [pendingResult_of_busy hbusy, pendingResult_of_busy (b := roundDone _ b) hbusy, roundDone,
        remainingRounds_setRunning b hcnt]

/-- A started operation is bound for the block function of the registers it latched (R124, R132). -/
theorem pendingResult_startOperation (d : Direction) {b : Block} (hcount : b.rounds ≠ 0#32) :
    pendingResult (startOperation d b) = cipherBlock d (b.data0, b.data1) b.keyRegs b.rounds := by
  rw [cipherBlock_of_count hcount]
  rfl

/-- The CMD word of a direction's START (R122, R123). -/
def startWord : Direction → Word
  | .encrypt => 0x00000001#32
  | .decrypt => 0x00000003#32

/-- The start word of a direction, written to an idle block with a count, starts that direction (R124). -/
theorem command_startWord (d : Direction) {b : Block} (hidle : b.status.busy = false) (hcount : b.rounds ≠ 0#32) :
    command (startWord d) b = startOperation d (b.setStatus (statusTaken b.status)) := by
  cases d with
  | encrypt => exact command_of_count rfl rfl hidle hcount
  | decrypt => exact command_of_count rfl rfl hidle hcount

/-- The operation the start word of a direction starts is bound for that direction's block function. -/
theorem pendingResult_command_startWord (d : Direction) {b : Block} (hidle : b.status.busy = false)
    (hcount : b.rounds ≠ 0#32) :
    pendingResult (command (startWord d) b) = cipherBlock d (b.data0, b.data1) b.keyRegs b.rounds := by
  rw [command_startWord d hidle hcount]
  exact pendingResult_startOperation d hcount

/-- Settles O25: the start latches what the block function is applied to. -/
theorem startIsBoundForBlockFunction : Obligations.StartIsBoundForBlockFunction := by
  intro s hidle hcount key
  have hpending := fun d => (pendingResult_command_startWord d hidle hcount).trans (cipherBlock_of_count hcount d _ _)
  exact ⟨⟨_, _, (exec_encrypt_eq_wr_ctrl s).trans (exec_wr_ctrl rfl), hpending .encrypt,
      cipherBlock_of_count hcount .encrypt _ _⟩,
    ⟨_, _, (exec_decrypt_eq_wr_ctrl s).trans (exec_wr_ctrl rfl), hpending .decrypt,
      cipherBlock_of_count hcount .decrypt _ _⟩⟩

/-- A round changes the working state alone, which no read returns (R20, R133). -/
theorem readReg_roundDone (r : Reg) (d : Direction) (b : Block) : readReg r (roundDone d b) = readReg r b := by
  cases r <;> rfl

/-- Completion changes STATUS, DATA0 and DATA1 alone (R131). -/
theorem readReg_complete {r : Reg} (hstatus : r ≠ .status) (hdata0 : r ≠ .data0) (hdata1 : r ≠ .data1) (b : Block) :
    readReg r (complete b) = readReg r b := by
  cases r with
  | status => exact absurd rfl hstatus
  | data0 => exact absurd rfl hdata0
  | data1 => exact absurd rfl hdata1
  | _ => rfl

theorem readReg_engineStep {r : Reg} (hstatus : r ≠ .status) (hdata0 : r ≠ .data0) (hdata1 : r ≠ .data1) (b : Block) :
    readReg r (engineStep b) = readReg r b := by
  by_cases hlast : b.work.cnt = 1#32
  · rw [engineStep_of_last hlast, readReg_complete hstatus hdata0 hdata1, readReg_roundDone]
  · rw [engineStep_of_more hlast, readReg_roundDone]

end Sys2Proof.Machine
end

section
/-! PROOFS. What a step does to a running operation and to the reports in STATUS, over all steps (R37, R63, R132, R178,
R201), and runs of steps from an accepted start. -/

namespace Sys2Proof.Machine

/-- The engine moves exactly when BUSY = 1 and the host is halted or has used up the gap (R9, R128, R136). -/
theorem nextAgent_eq_engine_iff {s : State} :
    nextAgent s = .engine ↔ s.block.status.busy = true ∧ (hostHalted s = true ∨ currentGap s = 0) := by
  simp [nextAgent, or_iff_not_imp_left]

/-- What a transaction does to STATUS: nothing; OVR, for a START while BUSY is 1; or it is a START taken idle. Only the
last touches the working state (R120, R125). -/
theorem transact_status_cases (t : Transaction) (b : Block) :
    ((transact t b).2.work = b.work ∧ (transact t b).2.status = b.status) ∨
    (b.status.busy = true ∧ (transact t b).2.work = b.work ∧ (transact t b).2.status = statusOverrun b.status) ∨
    (b.status.busy = false ∧ (t.we = true ∧ t.size = .bytes4 ∧ t.addr = regOffset .ctrl ∧ cmdStart t.wdata = true) ∧
      (transact t b).2 = takeStart t.wdata (b.setStatus (statusTaken b.status))) := by
  rcases transact_block_cases t b with hb | ⟨hwe, hsize, haddr, hb⟩ | ⟨r, -, -, -, -, hb⟩
  · exact .inl ⟨by rw [hb], by rw [hb]⟩
  · cases hstart : cmdStart t.wdata with
    | false => exact .inl (by rw [hb, command_of_not_start hstart]; exact ⟨rfl, rfl⟩)
    | true =>
      cases hbusy : b.status.busy with
      | true => exact .inr (.inl ⟨rfl, by rw [hb, command_of_busy hstart hbusy]; exact ⟨rfl, rfl⟩⟩)
      | false => exact .inr (.inr ⟨rfl, ⟨hwe, hsize, haddr, rfl⟩, by rw [hb, command_of_idle hstart hbusy]⟩)
  · exact .inl (by simp [hb])

/-- A START taken idle leaves DONE clear, whatever its outcome (R120). -/
theorem takeStart_taken_done (v : Word) (b : Block) :
    (takeStart v (b.setStatus (statusTaken b.status))).status.done = false := by
  unfold takeStart
  split_ifs <;> rfl

/-- What a step does to the block of a running operation: the engine's step; a transaction, which leaves the working
state and of STATUS sets OVR at most; or a RESET. -/
theorem step_cases_of_busy {s t : State} (h : step s = .next t) (hbusy : s.block.status.busy = true) :
    (nextAgent s = .engine ∧ t.block = engineStep s.block) ∨
    (nextAgent s = .host ∧ t.block.work = s.block.work ∧
      (t.block.status = s.block.status ∨ t.block.status = statusOverrun s.block.status)) ∨
    (nextAgent s = .host ∧ fetch s = some .reset ∧ t.block = Block.reset) := by
  rcases step_block_cases h with ⟨hagent, -, hb⟩ | ⟨hagent, tr, hb⟩ | hreset
  · exact .inl ⟨hagent, hb⟩
  · rcases transact_status_cases tr s.block with ⟨hwork, hst⟩ | ⟨-, hwork, hst⟩ | ⟨hidle, -⟩
    · exact .inr (.inl ⟨hagent, hb ▸ hwork, .inl (hb ▸ hst)⟩)
    · exact .inr (.inl ⟨hagent, hb ▸ hwork, .inr (hb ▸ hst)⟩)
    · simp [hbusy] at hidle
  · exact .inr (.inr hreset)

/-- A status that differs at most in OVR has the same BUSY. -/
theorem busy_of_same_or_overrun {st st' : Status} (h : st' = st ∨ st' = statusOverrun st) : st'.busy = st.busy := by
  rcases h with rfl | rfl <;> rfl

/-- A step that is no RESET leaves a running operation bound for what it was, or completes it by writing exactly that
(R132). The host's transactions touch neither BUSY nor the working state, and an engine step is one of the rounds to
come. -/
theorem step_pendingResult {s t : State} (h : step s = .next t) (hbusy : s.block.status.busy = true)
    (hcnt : s.block.work.cnt ≠ 0#32) (hreset : nextAgent s = .host → fetch s ≠ some .reset) :
    (t.block.status.busy = true ∧ t.block.work.cnt ≠ 0#32 ∧ pendingResult t.block = pendingResult s.block) ∨
    (t.block.status.busy = false ∧ t.block.status.done = true ∧
      pendingResult s.block = some (t.block.data0, t.block.data1)) := by
  rcases step_cases_of_busy h hbusy with ⟨-, hb⟩ | ⟨-, hwork, hst⟩ | ⟨hagent, hfetch, -⟩
  · rw [hb]
    exact engineStep_pendingResult hbusy hcnt
  · have hbusy' := busy_of_same_or_overrun hst
    exact .inl ⟨hbusy'.trans hbusy, hwork ▸ hcnt, pendingResult_congr hwork hbusy'⟩
  · exact absurd hfetch (hreset hagent)

/-- Settles O26. -/
theorem noStepAltersPendingResult : Obligations.NoStepAltersPendingResult := by
  intro s t h hbusy hcnt hreset
  exact (step_pendingResult h hbusy hcnt hreset).imp_left fun ⟨hbusy', _, hpending⟩ => ⟨hbusy', hpending⟩

/-- In every state of a run that no RESET interrupts, the operation that runs at its start is bound for what it was, or
has completed with exactly that. -/
theorem run_pendingResult {f : Nat → State} {m : Nat} (hbusy : (f 0).block.status.busy = true)
    (hcnt : (f 0).block.work.cnt ≠ 0#32)
    (hrun : ∀ j, j < m → (f j).block.status.busy = true ∧ step (f j) = .next (f (j + 1)) ∧
      ¬ (nextAgent (f j) = .host ∧ fetch (f j) = some .reset)) :
    ((f m).block.status.busy = true ∧ (f m).block.work.cnt ≠ 0#32 ∧
      pendingResult (f m).block = pendingResult (f 0).block) ∨
    ((f m).block.status.busy = false ∧ (f m).block.status.done = true ∧
      pendingResult (f 0).block = some ((f m).block.data0, (f m).block.data1)) := by
  induction m with
  | zero => exact .inl ⟨hbusy, hcnt, rfl⟩
  | succ m ih =>
    obtain ⟨hbusy', hstep, hreset⟩ := hrun m (Nat.lt_succ_self m)
    rcases ih fun j hj => hrun j (Nat.lt_succ_of_lt hj) with ⟨-, hcnt', hpending⟩ | ⟨hidle, -⟩
    · rw [← hpending]
      exact step_pendingResult hstep hbusy' hcnt' fun hagent hfetch => hreset ⟨hagent, hfetch⟩
    · simp [hbusy'] at hidle

/-- The instruction of a direction performs the command of its start word (R122, R123). -/
theorem block_of_exec_start {d : Direction} {s t : State}
    (h : exec (match d with | .encrypt => .encrypt | .decrypt => .decrypt) s = .next t) :
    t.block = command (startWord d) s.block := by
  cases d with
  | encrypt =>
    obtain rfl := Host.Outcome.next.inj ((exec_wr_ctrl rfl).symm.trans ((exec_encrypt_eq_wr_ctrl s).symm.trans h))
    rfl
  | decrypt =>
    obtain rfl := Host.Outcome.next.inj ((exec_wr_ctrl rfl).symm.trans ((exec_decrypt_eq_wr_ctrl s).symm.trans h))
    rfl

/-- Settles O27: the run starts bound for the block function, and no step of it alters that. -/
theorem operationResultIsBlockFunction : Obligations.OperationResultIsBlockFunction := by
  intro d s t f m hidle hcount hexec hf0 hrun hdone
  have hblock : (f 0).block = command (startWord d) s.block := hf0.trans (block_of_exec_start hexec)
  have hstarted := hblock.trans (command_startWord d hidle hcount)
  have hbusy : (f 0).block.status.busy = true := by rw [hstarted]; rfl
  have hcnt : (f 0).block.work.cnt ≠ 0#32 := by rw [hstarted]; exact hcount
  have hpending := pendingResult_command_startWord d hidle hcount
  rcases run_pendingResult hbusy hcnt hrun with ⟨hbusy', -⟩ | ⟨-, hd, hresult⟩
  · simp [hdone] at hbusy'
  · exact ⟨hd, hpending.symm.trans (hblock ▸ hresult)⟩

/-- Settles O33: a transaction leaves the working state, and a round writes none of the latched operands. -/
theorem latchedKeyImmutableWhileBusy : Obligations.LatchedKeyImmutableWhileBusy := by
  intro s t h hbusy hbusy'
  rcases step_cases_of_busy h hbusy with ⟨-, hb⟩ | ⟨-, hwork, -⟩ | ⟨-, -, hb⟩
  · rw [hb, engineStep_eq_roundDone]
    split_ifs <;> exact ⟨rfl, rfl⟩
  · simp [Block.latchedKey, hwork]
  · rw [hb] at hbusy'
    nomatch hbusy'

/-- Settles O21: a transaction leaves BUSY, and so does an engine step before the last. -/
theorem onlyCompletionOrResetEndsOperation : Obligations.OnlyCompletionOrResetEndsOperation := by
  intro s t h hbusy hidle
  rcases step_cases_of_busy h hbusy with ⟨hagent, hb⟩ | ⟨-, -, hst⟩ | ⟨hagent, hfetch, hb⟩
  · by_cases hlast : s.block.work.cnt = 1#32
    · exact .inl ⟨hagent, hlast, by rw [hb, engineStep_of_last hlast]; rfl⟩
    · rw [hb, engineStep_of_more hlast, roundDone_status, hbusy] at hidle
      nomatch hidle
  · rw [busy_of_same_or_overrun hst, hbusy] at hidle
    nomatch hidle
  · exact .inr ⟨hagent, hfetch, by rw [hb]; exact ⟨rfl, rfl, rfl⟩⟩

/-- No transaction raises DONE (R26). -/
theorem transact_done_of_done {t : Transaction} {b : Block} (h : (transact t b).2.status.done = true) :
    b.status.done = true := by
  rcases transact_status_cases t b with ⟨-, hst⟩ | ⟨-, -, hst⟩ | ⟨-, -, hb⟩
  · rwa [hst] at h
  · rwa [hst] at h
  · rw [hb, takeStart_taken_done] at h
    nomatch h

/-- Settles O32: neither a transaction nor a RESET raises DONE, nor an engine step before the last. -/
theorem completionIsOneAtomicStep : Obligations.CompletionIsOneAtomicStep := by
  intro s t h hclear hdone
  rcases step_block_cases h with ⟨hagent, hbusy, hb⟩ | ⟨-, tr, hb⟩ | ⟨-, -, hb⟩
  · by_cases hlast : s.block.work.cnt = 1#32
    · rw [hb, engineStep_of_last hlast]
      exact ⟨hagent, hbusy, rfl, rfl, rfl, rfl, rfl⟩
    · rw [hb, engineStep_of_more hlast, roundDone_status, hclear] at hdone
      nomatch hdone
  · rw [hb] at hdone
    rw [transact_done_of_done hdone] at hclear
    nomatch hclear
  · rw [hb] at hdone
    nomatch hdone

/-- Settles O22: with the gap at 0 BUSY alone decides, and the turn taken is one round. -/
theorem engineMovesExactlyWhenBusy : Obligations.EngineMovesExactlyWhenBusy := by
  refine ⟨fun s => ⟨fun ⟨_, hg⟩ => (nextAgent_eq_engine_iff.1 hg).1, fun hbusy => ⟨some 0, ?_⟩⟩, fun s hagent => ?_⟩
  · exact nextAgent_eq_engine_iff.2 ⟨hbusy, .inr rfl⟩
  · have hround : (engineStep s.block).running = cipherRound s.block.work.dirL s.block.latchedKey s.block.running := by
      rw [engineStep_eq_roundDone]
      split_ifs <;> rfl
    refine ⟨engineTurn s, step_of_engine hagent, hround.trans ?_⟩
    cases s.block.work.dirL <;> rfl

/-- Settles O34: completion is the one engine step that changes a register. -/
theorem engineChangesNoRegisterBeforeCompletion : Obligations.EngineChangesNoRegisterBeforeCompletion := by
  intro s t h hagent
  obtain rfl := Host.Outcome.next.inj ((step_of_engine hagent).symm.trans h)
  refine ⟨fun r hstatus hdata0 hdata1 => readReg_engineStep hstatus hdata0 hdata1 s.block, fun hmore r => ?_⟩
  show readReg r (engineStep s.block) = _
  rw [engineStep_of_more hmore, readReg_roundDone]

/-- ERR changes, or OVR or DONE falls, from `b` to `b'` (R178). -/
def ReportLost (b b' : Block) : Prop :=
  b'.status.err ≠ b.status.err ∨ (b.status.ovr = true ∧ b'.status.ovr = false) ∨
    (b.status.done = true ∧ b'.status.done = false)

theorem not_reportLost_of_status_eq {b b' : Block} (h : b'.status = b.status) : ¬ ReportLost b b' := by
  simp [ReportLost, h]

theorem not_reportLost_of_overrun {b b' : Block} (h : b'.status = statusOverrun b.status) : ¬ ReportLost b b' := by
  simp [ReportLost, h, statusOverrun]

theorem not_reportLost_engineStep (b : Block) : ¬ ReportLost b (engineStep b) := by
  rw [engineStep_eq_roundDone]
  split_ifs
  · simp [ReportLost, statusCompleted]
  · exact not_reportLost_of_status_eq rfl

/-- A transaction that loses a report is a START written to CTRL while BUSY is 0 (R120). -/
theorem start_of_transact_reportLost {t : Transaction} {b : Block} (h : ReportLost b (transact t b).2) :
    b.status.busy = false ∧ cmdStart t.wdata = true ∧ t = writeTransaction .bytes4 (regOffset .ctrl) t.wdata := by
  rcases transact_status_cases t b with ⟨-, hst⟩ | ⟨-, -, hst⟩ | ⟨hidle, ⟨hwe, hsize, haddr, hstart⟩, -⟩
  · exact absurd h (not_reportLost_of_status_eq hst)
  · exact absurd h (not_reportLost_of_overrun hst)
  · refine ⟨hidle, hstart, ?_⟩
    obtain ⟨we, size, addr, wdata⟩ := t
    simp only at hwe hsize haddr
    rw [hwe, hsize, haddr]
    rfl

/-- A word whose instruction is a four-byte write to CTRL is the CMD word written, or the listing of that write. -/
theorem word_of_ctrl_write {word : Encoded} {i : Instr} {v : Word} (hdecode : decode word = .ok i)
    (hi : instrTransaction i = writeTransaction .bytes4 (regOffset .ctrl) v) :
    word = .cmd v ∨ word = encode (.wr .bytes4 0x00#6 v) := by
  obtain rfl := encode_of_decode hdecode
  have hwe := congrArg Transaction.we hi
  have hsize := congrArg Transaction.size hi
  have haddr := congrArg Transaction.addr hi
  have hv := congrArg Transaction.wdata hi
  cases i with
  | nop dir rsvd => exact .inl (congrArg Encoded.cmd hv)
  | encrypt => exact .inl (congrArg Encoded.cmd hv)
  | decrypt => exact .inl (congrArg Encoded.cmd hv)
  | rd size addr w => nomatch hwe
  | wr size addr w =>
    obtain rfl : size = .bytes4 := hsize
    obtain rfl : addr = 0x00#6 := haddr
    obtain rfl : w = v := hv
    exact .inr rfl

/-- A POLL's turn is one read, and moves `hpc` on exactly when its condition holds of the value read (R135). -/
theorem pollTurn_eq (addr : Addr) (mask value : Word) (s : State) :
    pollTurn addr mask value s =
      { hostTransact (readTransaction .bytes4 addr 0#32) s with
        hpc := if (transact (readTransaction .bytes4 addr 0#32) s.block).1.rdata &&& mask = value then s.hpc + 1
          else s.hpc } := by
  simp only [pollTurn, hostTransact_lastRead, pollHolds, beq_iff_eq]
  split <;> rfl

@[simp] theorem pollTurn_block (addr : Addr) (mask value : Word) (s : State) :
    (pollTurn addr mask value s).block = s.block := by
  rw [pollTurn_eq]
  exact transact_readTransaction_block .bytes4 addr 0#32 s.block

@[simp] theorem pollTurn_program (addr : Addr) (mask value : Word) (s : State) :
    (pollTurn addr mask value s).program = s.program := by
  rw [pollTurn_eq]
  rfl

@[simp] theorem pollTurn_vars (addr : Addr) (mask value : Word) (s : State) :
    (pollTurn addr mask value s).vars = s.vars := by
  rw [pollTurn_eq]
  rfl

@[simp] theorem pollTurn_gap (addr : Addr) (mask value : Word) (s : State) :
    (pollTurn addr mask value s).gap = s.gap := by
  rw [pollTurn_eq]
  rfl

@[simp] theorem pollTurn_draws (addr : Addr) (mask value : Word) (s : State) :
    (pollTurn addr mask value s).draws = s.draws := by
  rw [pollTurn_eq]
  rfl

/-- Settles O19: of what a step can do, only a RESET and a START taken idle lose a report. -/
theorem reportsKeptUntilNextIdleStart : Obligations.ReportsKeptUntilNextIdleStart := by
  intro s t h hlost
  have hlost : ReportLost s.block t.block := hlost
  rcases step_cases h with ⟨-, rfl⟩ | ⟨hagent, word, dst, tr, hfetch, hword, rfl⟩ | ⟨-, addr, mask, value, -, rfl⟩ |
    ⟨hagent, hfetch, -⟩
  · exact absurd hlost (not_reportLost_engineStep s.block)
  · rw [endTransact_block, hostTransact_block, takeHostTurn_block] at hlost
    obtain ⟨hidle, hstart, htr⟩ := start_of_transact_reportLost hlost
    refine ⟨hagent, .inr ⟨hidle, dst, tr.wdata, hstart, ?_⟩⟩
    rcases hword with ⟨i, hdecode, hi⟩ | ⟨w, rfl, rfl⟩
    · exact (word_of_ctrl_write hdecode (hi.symm.trans htr)).imp (fun hw => by rw [hfetch, hw])
        fun hw => by rw [hfetch, hw]
    · exact .inl hfetch
  · exact absurd hlost (not_reportLost_of_status_eq (by simp))
  · exact ⟨hagent, .inl hfetch⟩

end Sys2Proof.Machine
end

section
/-! PROOFS. The host's turn (R135), the model's schedule (log entry 1), the end of a run (R136), and systems of several
TEA-COREs (R186). -/

namespace Sys2Proof.Machine

theorem step_of_host {s : State} (h : nextAgent s = .host) : step s = hostTurn s := by
  simp [step, h]

theorem hostHalted_iff {s : State} : hostHalted s = true ↔ s.program.length ≤ s.hpc := by
  simp [hostHalted, fetch]

theorem fetch_eq_none_iff {s : State} : fetch s = none ↔ hostHalted s = true := by
  simp [hostHalted]

/-- The turn of a statement whose word decodes is that instruction's turn (R135). -/
theorem hostTurn_of_decode {s : State} {word : Encoded} {dst : Option Var} {i : Instr}
    (hfetch : fetch s = some (.transact word dst)) (hdecode : decode word = .ok i) :
    hostTurn s = transactTurn i dst (takeHostTurn s) := by
  simp [hostTurn, hfetch, hdecode]

/-- The turn of a statement whose word does not decode (R85, R120). -/
theorem hostTurn_of_decode_error {s : State} {word : Encoded} {dst : Option Var} {e : DecodeError}
    (hfetch : fetch s = some (.transact word dst)) (hdecode : decode word = .error e) :
    hostTurn s = .next (illegalTurn word dst (takeHostTurn s)) := by
  simp [hostTurn, hfetch, hdecode]

/-- The turn of a POLL (R135). -/
theorem hostTurn_of_poll {s : State} {addr : Addr} {mask value : Word}
    (hfetch : fetch s = some (.poll addr mask value)) :
    hostTurn s = .next (pollTurn addr mask value (takeHostTurn s)) := by
  simp [hostTurn, hfetch]

/-- The turn of a RESET (R135). -/
theorem hostTurn_of_reset {s : State} (hfetch : fetch s = some .reset) :
    hostTurn s = .next (resetTurn (takeHostTurn s)) := by
  simp [hostTurn, hfetch]

theorem transactTurn_eq (i : Instr) (dst : Option Var) (s : State) :
    transactTurn i dst s = .next (endTransact dst (hostTransact (instrTransaction i) s)) := by
  rw [transactTurn, exec_eq]

/-- Every statement completes: the host's turn answers a next state (R135, R173, R177). -/
theorem hostTurn_of_fetch {s : State} {st : Stmt} (h : fetch s = some st) : ∃ t, hostTurn s = .next t := by
  cases st with
  | transact word dst =>
    cases hdecode : decode word with
    | ok i => exact ⟨_, (hostTurn_of_decode h hdecode).trans (transactTurn_eq i dst _)⟩
    | error e => exact ⟨_, hostTurn_of_decode_error h hdecode⟩
  | poll addr mask value => exact ⟨_, hostTurn_of_poll h⟩
  | reset => exact ⟨_, hostTurn_of_reset h⟩

/-- At the end of a run neither agent has a step (R136). -/
theorem step_of_runEnded {s : State} (h : s.runEnded) : step s = .fault .runEnded := by
  obtain ⟨hhalted, hidle⟩ := h
  have hhost : nextAgent s = .host := by simp [nextAgent, hidle]
  rw [step_of_host hhost, hostTurn, fetch_eq_none_iff.2 hhalted]

/-- Before the end of a run, one of the agents has a step (R136). -/
theorem step_of_not_runEnded {s : State} (h : ¬ s.runEnded) : ∃ t, step s = .next t := by
  cases hagent : nextAgent s with
  | engine => exact ⟨_, step_of_engine hagent⟩
  | host =>
    rw [step_of_host hagent]
    cases hfetch : fetch s with
    | some st => exact hostTurn_of_fetch hfetch
    | none =>
      have hhalted := fetch_eq_none_iff.1 hfetch
      have hidle : s.block.status.busy = false := by
        by_contra hbusy
        have hengine := nextAgent_eq_engine_iff.2 ⟨Bool.eq_true_of_not_eq_false hbusy, .inl hhalted⟩
        nomatch hengine.symm.trans hagent
      exact absurd ⟨hhalted, hidle⟩ h

/-- Settles O41: the two lemmas above decide every state. -/
theorem stepStopsExactlyAtEndOfRun : Obligations.StepStopsExactlyAtEndOfRun := by
  intro s
  rw [← hostHalted_iff]
  refine ⟨⟨fun hfault => ?_, step_of_runEnded⟩, step_of_not_runEnded⟩
  by_contra hmore
  obtain ⟨t, ht⟩ := step_of_not_runEnded hmore
  nomatch hfault.symm.trans ht

/-- Of the schedule, a host turn changes what taking the turn changes (log entry 1). -/
theorem host_step_schedule {s t : State} (h : step s = .next t) (hagent : nextAgent s = .host) :
    t.gap = (takeHostTurn s).gap ∧ t.draws = s.draws := by
  rcases step_cases h with ⟨hengine, -⟩ | ⟨-, -, -, -, -, -, rfl⟩ | ⟨-, -, -, -, -, rfl⟩ | ⟨-, -, rfl⟩
  · nomatch hagent.symm.trans hengine
  · simp
  · simp
  · exact ⟨rfl, takeHostTurn_draws s⟩

/-- Settles O31: while BUSY = 1 the host moves only when some of the gap is left. -/
theorem hostStepsUseUpTheGap : Obligations.HostStepsUseUpTheGap := by
  intro s t h hbusy hagent
  obtain ⟨hgap, hdraws⟩ := host_step_schedule h hagent
  rw [takeHostTurn_gap, if_pos hbusy] at hgap
  have hopen : currentGap s ≠ 0 := fun h0 => by
    nomatch hagent.symm.trans (nextAgent_eq_engine_iff.2 ⟨hbusy, .inr h0⟩)
  refine ⟨?_, hdraws⟩
  rw [currentGap, hgap]
  exact Nat.succ_pred_eq_of_ne_zero hopen

/-- Settles O38: the turn of a statement that decodes is `exec`, then the end of the statement. -/
theorem stepRunsTheDecodedInstruction : Obligations.StepRunsTheDecodedInstruction := by
  intro s u word dst i hagent hfetch hdecode hexec
  rw [step_of_host hagent, hostTurn_of_decode hfetch hdecode, transactTurn, hexec]
  cases dst with
  | none => rfl
  | some x => rfl

/-- Settles O39: the turn of an illegal CMD word is the write of it to CTRL, then the end of the statement. -/
theorem stepRunsAnIllegalCommandAsItsWrite : Obligations.StepRunsAnIllegalCommandAsItsWrite := by
  intro s u w dst hagent hfetch hdecode hexec
  obtain rfl := Host.Outcome.next.inj ((exec_eq _ _).symm.trans hexec)
  rw [step_of_host hagent, hostTurn_of_decode_error hfetch hdecode]
  cases dst with
  | none => rfl
  | some x => rfl

/-- A transaction's response is an error only with `RDATA` = 0 (R54). -/
theorem transact_rdata_of_berr {t : Transaction} {b : Block} (h : (transact t b).1.berr = true) :
    (transact t b).1.rdata = 0#32 := by
  unfold transact at h ⊢
  split at h
  · split at h <;> nomatch h
  · rfl

/-- Settles O40: one try of POLL is one read, whose response decides whether `hpc` moves. -/
theorem pollRepeatsUntilItsCondition : Obligations.PollRepeatsUntilItsCondition := by
  intro s addr mask value hagent hfetch
  let resp := (transact (readTransaction .bytes4 addr 0#32) s.block).1
  have hstep : step s = .next (pollTurn addr mask value (takeHostTurn s)) := by
    rw [step_of_host hagent, hostTurn_of_poll hfetch]
  have hread : exec (.rd .bytes4 addr 0#32) s =
      .next { s with log := s.log ++ [⟨.read, addr, resp.rdata, resp.berr⟩] } := by
    rw [exec_eq, instrTransaction, hostTransact, transact_readTransaction_block]
    rfl
  refine ⟨_, resp.rdata, resp.berr, hstep, hread, transact_rdata_of_berr, by simp, by simp, by simp, ?_, ?_⟩
  · simp [pollTurn_eq, logEntry, readTransaction, resp]
  · simp [pollTurn_eq, resp]

/-- The engine's turns, one after the other, are engine steps of the block and leave the host (R128). -/
theorem engineTurn_iterate (k : Nat) (s : State) :
    (engineTurn^[k] s).block = engineStep^[k] s.block ∧ (engineTurn^[k] s).program = s.program ∧
      (engineTurn^[k] s).hpc = s.hpc ∧ (engineTurn^[k] s).log = s.log ∧ (engineTurn^[k] s).vars = s.vars := by
  induction k with
  | zero => exact ⟨rfl, rfl, rfl, rfl, rfl⟩
  | succ k ih =>
    obtain ⟨hblock, hhost⟩ := ih
    rw [Function.iterate_succ_apply', Function.iterate_succ_apply', ← hblock]
    exact ⟨rfl, hhost⟩

/-- A run of one step more is the step and then the rest of the run. -/
theorem run_succ_eq_next_iff {M : Host.Core} {k : Nat} {s u : M.State} :
    M.run (k + 1) s = .next u ↔ ∃ t, M.step s = .next t ∧ M.run k t = .next u := by
  rw [Host.Core.run]
  cases M.step s with
  | next t => simp
  | fault r => simp
  | refused r => simp

/-- With the host halted, every step while BUSY = 1 is the engine's (R136). -/
theorem run_of_halted {k : Nat} {s : State} (hhalted : hostHalted s = true)
    (hbusy : ∀ j, j < k → (engineStep^[j] s.block).status.busy = true) :
    core.run k s = .next (engineTurn^[k] s) := by
  induction k generalizing s with
  | zero => rfl
  | succ k ih =>
    have hengine := nextAgent_eq_engine_iff.2 ⟨hbusy 0 (Nat.succ_pos k), .inl hhalted⟩
    have hrest := ih (s := engineTurn s) hhalted fun j hj => hbusy (j + 1) (Nat.succ_lt_succ hj)
    exact run_succ_eq_next_iff (M := core).2 ⟨engineTurn s, step_of_engine hengine, hrest⟩

/-- Settles O30: the CNT steps are the engine's, and together they are the collapsed engine's one step. -/
theorem haltedHostRunsToCompletion : Obligations.HaltedHostRunsToCompletion := by
  intro s hhalted hbusy hcnt
  have hrun := run_of_halted hhalted fun j hj =>
    ((operationTakesExactlyCntEngineSteps s.block hbusy hcnt).1 j hj).1
  obtain ⟨hblock, hprogram, hhpc, hlog, hvars⟩ := engineTurn_iterate s.block.work.cnt.toNat s
  rw [engineStep_iterate_cnt hcnt] at hblock
  have hended : (engineTurn^[s.block.work.cnt.toNat] s).runEnded :=
    ⟨by rw [hostHalted, fetch, hprogram, hhpc]; exact hhalted, by rw [hblock]; rfl⟩
  refine ⟨_, hrun, by rw [hblock]; rfl, ?_, by rw [hblock]; rfl, by rw [hblock]; rfl, hprogram, hhpc, hlog, hvars,
    step_of_runEnded hended⟩
  rw [hblock, pendingResult_of_busy hbusy]
  rfl

/-- A step at index `k` puts that entry's own next state in place and touches no other (R186). -/
theorem systemStep_frame {k : Nat} {sys sys' : TeaSystem} (h : systemStep k sys = .next sys') :
    sys'.length = sys.length ∧ (∀ j, j ≠ k → sys'[j]? = sys[j]?) ∧ sys'.map State.base = sys.map State.base ∧
      ∃ s t, sys[k]? = some s ∧ step s = .next t ∧ sys'[k]? = some t := by
  have hbases := systemStep_bases h
  obtain ⟨s, t, hk, hs, rfl⟩ := systemStep_eq_next.1 h
  obtain ⟨hlt, -⟩ := List.getElem?_eq_some_iff.1 hk
  exact ⟨List.length_set, fun j hj => List.getElem?_set_ne hj.symm, hbases, s, t, hk, hs,
    List.getElem?_set_self hlt⟩

/-- Steps at two indices write two entries of the list, and neither reads the other's. -/
theorem systemStep_comm {j k : Nat} (hjk : j ≠ k) {sys sys₁ sys₂ : TeaSystem} (h₁ : systemStep j sys = .next sys₁)
    (h₂ : systemStep k sys₁ = .next sys₂) :
    ∃ sys₃, systemStep k sys = .next sys₃ ∧ systemStep j sys₃ = .next sys₂ := by
  obtain ⟨s, s', hj, hs, rfl⟩ := systemStep_eq_next.1 h₁
  obtain ⟨t, t', hk, ht, rfl⟩ := systemStep_eq_next.1 h₂
  rw [List.getElem?_set_ne hjk] at hk
  have hj' : (sys.set k t')[j]? = some s := by rw [List.getElem?_set_ne hjk.symm, hj]
  exact ⟨_, systemStep_eq_next.2 ⟨t, t', hk, ht, rfl⟩,
    systemStep_eq_next.2 ⟨s, s', hj', hs, List.set_comm _ _ hjk⟩⟩

/-- Settles O43. -/
theorem instancesDoNotInteract : Obligations.InstancesDoNotInteract :=
  ⟨fun _ _ _ => systemStep_frame, fun _ _ _ _ _ hjk => systemStep_comm hjk⟩

end Sys2Proof.Machine
end

section
/-! PROOFS. The invariant holds at reset, every step keeps it, and so it holds along every run (R39). -/

namespace Sys2Proof.Machine

/-- The block's two invariants together: R39's five clauses and the sum of a running decryption. -/
def Block.Safe (b : Block) : Prop := b.Inv ∧ b.SumInv

theorem safe_reset : Block.reset.Safe := by
  unfold Block.Safe
  decide

/-- OVR and the registers do not enter the block's invariants. -/
theorem safe_congr {b b' : Block} (hwork : b'.work = b.work) (hbusy : b'.status.busy = b.status.busy)
    (hdone : b'.status.done = b.status.done) (herr : b'.status.err = b.status.err) (h : b.Safe) : b'.Safe := by
  simpa only [Block.Safe, Block.Inv, Block.SumInv, hwork, hbusy, hdone, herr] using h

/-- ERR is clear while an operation runs (R39). -/
theorem err_of_busy {b : Block} (h : b.Safe) (hbusy : b.status.busy = true) : b.status.err = errNone := by
  obtain ⟨⟨-, -, -, -, hreject⟩, -⟩ := h
  by_contra herr
  exact Bool.false_ne_true ((hreject herr).1.symm.trans hbusy)

/-- A command rejected while BUSY is 0 reports its code, with BUSY, DONE and CNT 0 (R126, R127). -/
theorem safe_raiseCmdError {b : Block} (h : b.Safe) (hidle : b.status.busy = false) {code : BitVec 4}
    (hcode : code = errInvalidIterationCount ∨ code = errIllegalCommand) :
    (raiseCmdError code (b.setStatus (statusTaken b.status))).Safe := by
  obtain ⟨⟨-, -, hcnt, -, -⟩, -⟩ := h
  rw [raiseCmdError_taken_of_idle code hidle]
  exact ⟨⟨nofun, nofun, fun _ => hcnt hidle, .inr hcode, fun _ => ⟨rfl, rfl⟩⟩, nofun⟩

/-- A start has a count, clears DONE and ERR, and gives a decryption the sum DELTA * ROUNDS (R124). -/
theorem safe_startOperation (d : Direction) {b : Block} (hcount : b.rounds ≠ 0#32) :
    (startOperation d (b.setStatus (statusTaken b.status))).Safe := by
  refine ⟨⟨fun _ => hcount, fun _ => rfl, nofun, .inl rfl, fun herr => absurd rfl herr⟩, fun _ hdir => ?_⟩
  obtain rfl : d = .decrypt := hdir
  rfl

/-- A START taken idle is rejected with a code or accepted with a count (R120). -/
theorem safe_takeStart (v : Word) {b : Block} (h : b.Safe) (hidle : b.status.busy = false) :
    (takeStart v (b.setStatus (statusTaken b.status))).Safe := by
  unfold takeStart
  split_ifs with hrsvd hzero
  · exact safe_raiseCmdError h hidle (.inr rfl)
  · exact safe_raiseCmdError h hidle (.inl rfl)
  · exact safe_startOperation _ hzero

/-- A transaction keeps the block's invariants: unless it is a START taken idle, it leaves all that they speak of. -/
theorem safe_transact (t : Transaction) {b : Block} (h : b.Safe) : (transact t b).2.Safe := by
  rcases transact_status_cases t b with ⟨hwork, hst⟩ | ⟨-, hwork, hst⟩ | ⟨hidle, -, hb⟩
  · exact safe_congr hwork (by rw [hst]) (by rw [hst]) (by rw [hst]) h
  · exact safe_congr hwork (by rw [hst]; rfl) (by rw [hst]; rfl) (by rw [hst]; rfl) h
  · rw [hb]
    exact safe_takeStart t.wdata h hidle

/-- A round takes one from CNT and, in a decryption, one DELTA from the sum (R130). -/
theorem safe_roundDone {b : Block} (h : b.Safe) (hbusy : b.status.busy = true) (hmore : b.work.cnt ≠ 1#32) :
    (roundDone b.work.dirL b).Safe := by
  have herr := err_of_busy h hbusy
  obtain ⟨⟨-, hdone, -, -, -⟩, hsum⟩ := h
  refine ⟨⟨fun _ h0 => hmore ?_, hdone, fun hidle => ?_, .inl herr, fun h0 => absurd herr h0⟩, fun _ hdir => ?_⟩
  · rw [roundDone_cnt] at h0
    bv_omega
  · nomatch hbusy.symm.trans hidle
  · have hdir : b.work.dirL = .decrypt := hdir
    calc (roundDone b.work.dirL b).work.sum
      _ = b.work.sum - delta := by rw [hdir]; rfl
      _ = delta * (b.work.cnt - 1#32) := by rw [hsum hbusy hdir, BitVec.mul_sub, BitVec.mul_one]

/-- Completion brings CNT to 0 with BUSY, and DONE rises with ERR clear (R131). -/
theorem safe_complete {b : Block} (h : b.Safe) (hbusy : b.status.busy = true) (hlast : b.work.cnt = 1#32) :
    (complete (roundDone b.work.dirL b)).Safe := by
  have herr := err_of_busy h hbusy
  refine ⟨⟨nofun, nofun, fun _ => ?_, .inl herr, fun h0 => absurd herr h0⟩, nofun⟩
  rw [complete_work, roundDone_cnt, hlast]
  rfl

theorem safe_engineStep {b : Block} (h : b.Safe) (hbusy : b.status.busy = true) : (engineStep b).Safe := by
  by_cases hlast : b.work.cnt = 1#32
  · rw [engineStep_of_last hlast]
    exact safe_complete h hbusy hlast
  · rw [engineStep_of_more hlast]
    exact safe_roundDone h hbusy hlast

/-- Every step keeps the block's invariants, whatever the host and the schedule. -/
theorem step_safe {s t : State} (hs : s.block.Safe) (h : step s = .next t) : t.block.Safe := by
  rcases step_block_cases h with ⟨-, hbusy, hb⟩ | ⟨-, tr, hb⟩ | ⟨-, -, hb⟩
  · rw [hb]
    exact safe_engineStep hs hbusy
  · rw [hb]
    exact safe_transact tr hs
  · rw [hb]
    exact safe_reset

theorem hpc_lt_of_fetch {s : State} {st : Stmt} (h : fetch s = some st) : s.hpc < s.program.length :=
  (List.getElem?_eq_some_iff.1 h).1

/-- What a step does to the host: the program stays, `hpc` moves on by at most one and only past a statement, and the
variables keep their canonical form (R135). -/
theorem step_host {s t : State} (h : step s = .next t) :
    t.program = s.program ∧ (t.hpc = s.hpc ∨ t.hpc = s.hpc + 1 ∧ s.hpc < s.program.length) ∧
      (Vars.wf s.vars → Vars.wf t.vars) := by
  rcases step_cases h with ⟨-, rfl⟩ | ⟨-, word, dst, tr, hfetch, -, rfl⟩ | ⟨-, addr, mask, value, hfetch, rfl⟩ |
    ⟨-, hfetch, rfl⟩
  · exact ⟨rfl, .inl rfl, id⟩
  · exact ⟨by simp, .inr ⟨by simp, hpc_lt_of_fetch hfetch⟩, fun hwf => endTransact_vars_wf dst (by simpa using hwf)⟩
  · refine ⟨by simp, ?_, by simp⟩
    simp only [pollTurn_eq, takeHostTurn_hpc]
    split_ifs
    · exact .inr ⟨rfl, hpc_lt_of_fetch hfetch⟩
    · exact .inl rfl
  · exact ⟨by simp, .inr ⟨by simp, hpc_lt_of_fetch hfetch⟩, by simp⟩

/-- Settles O35: the block's part is kept by each of its operations, the host's by each of its turns. -/
theorem stepKeepsTheInvariant : Obligations.StepKeepsTheInvariant := by
  intro s t hs h
  obtain ⟨hinv, hsum, hhpc, hvars⟩ := hs
  obtain ⟨hinv', hsum'⟩ := step_safe ⟨hinv, hsum⟩ h
  obtain ⟨hprogram, hmove, hwf⟩ := step_host h
  refine ⟨hinv', hsum', ?_, hwf hvars⟩
  rw [hprogram]
  rcases hmove with hsame | ⟨hnext, hlt⟩
  · exact hsame ▸ hhpc
  · exact hnext ▸ hlt

/-- Settles O36: the reset block is safe, and a host at statement 0 with no variables has nothing to break. -/
theorem resetMeetsTheInvariant : Obligations.ResetMeetsTheInvariant := by
  have hinv : ∀ program : List Stmt, State.Inv { State.reset with program := program } :=
    fun _ => ⟨safe_reset.1, safe_reset.2, Nat.zero_le _, .nil⟩
  exact ⟨hinv [], hinv⟩

/-- What every step keeps holds along every run. -/
theorem run_induction {P : State → Prop} (hstep : ∀ s t, P s → step s = .next t → P t) {n : Nat} {s t : State}
    (hs : P s) (h : core.run n s = .next t) : P t := by
  induction n generalizing s with
  | zero => exact Host.Outcome.next.inj h ▸ hs
  | succ n ih =>
    obtain ⟨u, hu, hrest⟩ := (run_succ_eq_next_iff (M := core)).1 h
    exact ih (hstep s u hs hu) hrest

/-- Settles O37: the block's invariants are kept by every step, so they hold along the run. -/
theorem reachableStatesMeetFiveInvariants : Obligations.ReachableStatesMeetFiveInvariants := by
  intro s t n hs h
  have hreset : s.block.Safe := hs ▸ safe_reset
  obtain ⟨⟨hcnt, hdone, hidle, herr, hreject⟩, -⟩ :=
    run_induction (P := fun u => u.block.Safe) (fun _ _ => step_safe) hreset h
  refine ⟨fun hbusy => ?_, hdone, hidle, herr, hreject⟩
  exact Nat.one_le_iff_ne_zero.2 fun h0 => hcnt hbusy (BitVec.eq_of_toNat_eq h0)

end Sys2Proof.Machine
end

section
/-! PROOFS. Packing and unpacking (R152), a buffer as the bytes of its blocks (R153), and the buffer operations block by
block and undone by the other direction (R161, R162). -/

namespace Sys2Proof.Machine

/-- A word packed in big order is its four bytes one after the other (R152). -/
theorem packWord_big_eq_append (b0 b1 b2 b3 : Byte) : packWord .big b0 b1 b2 b3 = b0 ++ b1 ++ b2 ++ b3 := by
  ext i hi
  simp only [packWord, BitVec.getElem_or, BitVec.getElem_shiftLeft, BitVec.getElem_setWidth]
  grind

/-- Little order is big order with the bytes the other way round (R152). -/
theorem packWord_little (b0 b1 b2 b3 : Byte) : packWord .little b0 b1 b2 b3 = packWord .big b3 b2 b1 b0 := rfl

theorem unpackWord_little (w : Word) : unpackWord .little w = (unpackWord .big w).reverse := rfl

theorem unpackWord_big_packWord_big (b0 b1 b2 b3 : Byte) :
    unpackWord .big (packWord .big b0 b1 b2 b3) = [b0, b1, b2, b3] := by
  simp (disch := decide) only [unpackWord, packWord_big_eq_append, BitVec.extractLsb'_append_eq_of_le,
    BitVec.extractLsb'_append_eq_right, BitVec.extractLsb'_eq_self, Nat.reduceSub]

theorem unpackWord_packWord (order : ByteOrder) (b0 b1 b2 b3 : Byte) :
    unpackWord order (packWord order b0 b1 b2 b3) = [b0, b1, b2, b3] := by
  cases order with
  | big => exact unpackWord_big_packWord_big b0 b1 b2 b3
  | little => rw [packWord_little, unpackWord_little, unpackWord_big_packWord_big]; rfl

/-- The four bytes of a word, one after the other, are the word (R152). -/
theorem packWord_big_bytes (w : Word) :
    packWord .big (w.extractLsb' 24 8) (w.extractLsb' 16 8) (w.extractLsb' 8 8) (w.extractLsb' 0 8) = w := by
  rw [packWord_big_eq_append, BitVec.extractLsb'_append_extractLsb'_eq_extractLsb' (show 24 = 16 + 8 from rfl),
    BitVec.extractLsb'_append_extractLsb'_eq_extractLsb' (show 16 = 8 + 8 from rfl),
    BitVec.extractLsb'_append_extractLsb'_eq_extractLsb' (show 8 = 0 + 8 from rfl)]
  exact BitVec.extractLsb'_eq_self

/-- Settles O49: in big order a word is the concatenation of its bytes, and little order is big order reversed. -/
theorem packingRoundTrip : Obligations.PackingRoundTrip := by
  refine ⟨unpackWord_packWord, fun order w => ?_⟩
  cases order with
  | big => exact ⟨_, _, _, _, rfl, packWord_big_bytes w⟩
  | little => exact ⟨_, _, _, _, rfl, packWord_big_bytes w⟩

/-- Different words have different bytes. -/
theorem unpackWord_injective {order : ByteOrder} {w w' : Word} (h : unpackWord order w = unpackWord order w') :
    w = w' := by
  obtain ⟨b0, b1, b2, b3, hbytes, hw⟩ := packingRoundTrip.2 order w
  obtain ⟨b0', b1', b2', b3', hbytes', hw'⟩ := packingRoundTrip.2 order w'
  rw [hbytes, hbytes'] at h
  simp only [List.cons.injEq, and_true] at h
  obtain ⟨rfl, rfl, rfl, rfl⟩ := h
  exact hw.symm.trans hw'

/-- The word at an index is the packing of the four bytes there (R153). -/
theorem unpackWord_wordAt {order : ByteOrder} {x : List Byte} {i : Nat} (h : i + 4 ≤ x.length) :
    unpackWord order (wordAt order x i) = (x.drop i).take 4 := by
  rw [wordAt, unpackWord_packWord]
  refine List.ext_getElem (by simp; omega) fun k hk _ => ?_
  have hk : k < 4 := hk
  interval_cases k <;> simp (disch := omega)

/-- The bytes of a buffer's block are its eight bytes of the buffer (R153). -/
theorem blockBytes_blockAt {order : ByteOrder} {data : List Byte} {j : Nat} (h : 8 * j + 8 ≤ data.length) :
    blockBytes order (blockAt order data j) = (data.drop (8 * j)).take 8 := by
  rw [blockBytes, blockAt, unpackWord_wordAt (by omega), unpackWord_wordAt (by omega), ← List.drop_drop,
    ← List.take_add]

/-- Different blocks have different bytes. -/
theorem blockBytes_injective {order : ByteOrder} {b c : Word × Word} (h : blockBytes order b = blockBytes order c) :
    b = c := by
  obtain ⟨h0, h1⟩ := List.append_inj h (by simp)
  exact Prod.ext (unpackWord_injective h0) (unpackWord_injective h1)

/-- A buffer of whole blocks is the bytes of its blocks, in order (R153). -/
theorem blocksOfBytes_flatMap_blockBytes {order : ByteOrder} {data : List Byte} (h : data.length % 8 = 0) :
    (blocksOfBytes order data).flatMap (blockBytes order) = data := by
  have hprefix : ∀ n, 8 * n ≤ data.length →
      ((List.range n).map (blockAt order data)).flatMap (blockBytes order) = data.take (8 * n) := by
    intro n hn
    induction n with
    | zero => simp
    | succ n ih =>
      rw [List.range_succ, List.map_append, List.flatMap_append, ih (by omega), List.map_singleton,
        List.flatMap_singleton, blockBytes_blockAt hn, Nat.mul_succ, List.take_add]
  rw [blocksOfBytes, hprefix _ (Nat.mul_div_le _ _), Nat.mul_div_cancel' (Nat.dvd_of_mod_eq_zero h), List.take_length]

/-- The bytes 8j to 8j+7 of a list of blocks' bytes are those of block j. -/
theorem take_drop_flatMap_blockBytes {order : ByteOrder} {cs : List (Word × Word)} {j : Nat} {c : Word × Word}
    (h : cs[j]? = some c) : ((cs.flatMap (blockBytes order)).drop (8 * j)).take 8 = blockBytes order c := by
  induction cs generalizing j with
  | nil => nomatch h
  | cons b cs ih =>
    cases j with
    | zero =>
      obtain rfl : b = c := by simpa using h
      simp
    | succ j =>
      have hskip : 8 * (j + 1) = (blockBytes order b).length + 8 * j := by rw [blockBytes_length]; omega
      rw [List.flatMap_cons, hskip, List.drop_length_add_append]
      exact ih (by simpa using h)

/-- The blocks of a list of blocks' bytes are those blocks (R153). -/
theorem blocksOfBytes_flatMap (order : ByteOrder) (cs : List (Word × Word)) :
    blocksOfBytes order (cs.flatMap (blockBytes order)) = cs := by
  have hlen : (cs.flatMap (blockBytes order)).length = 8 * cs.length := by
    simp [List.length_flatMap, Nat.mul_comm]
  refine List.ext_getElem (by simp [hlen]) fun j hj hj' => ?_
  simp only [blocksOfBytes, List.getElem_map, List.getElem_range]
  apply blockBytes_injective (order := order)
  rw [blockBytes_blockAt (by omega), take_drop_flatMap_blockBytes (List.getElem?_eq_getElem hj')]

/-- The blocks are transformed one by one, in order (R154, R161). -/
theorem cipherBlocks_eq_some_iff {d : Direction} {k : Key} {n : Word} {l out : List (Word × Word)} :
    cipherBlocks d k n l = some out ↔ List.Forall₂ (fun b c => cipherBlock d b k n = some c) l out := by
  induction l generalizing out with
  | nil => simp [cipherBlocks, eq_comm]
  | cons b l ih =>
    simp only [List.forall₂_cons_left_iff, ← ih, cipherBlocks]
    cases cipherBlock d b k n with
    | none => simp
    | some c =>
      cases cipherBlocks d k n l with
      | none => simp
      | some cs => simp [eq_comm]

/-- Transformed blocks are taken back one by one by the opposite direction (R162). -/
theorem cipherBlocks_opposite {d : Direction} {k : Key} {n : Word} {l out : List (Word × Word)}
    (h : cipherBlocks d k n l = some out) : cipherBlocks (opposite d) k n out = some l :=
  cipherBlocks_eq_some_iff.2 ((cipherBlocks_eq_some_iff.1 h).imp fun _ _ => cipherBlock_opposite).flip

/-- A buffer operation that answers has passed its checks, and answers the bytes of the transformed blocks (R154). -/
theorem blocks_of_bufferOperation_ok {d : Direction} {order : ByteOrder} {data key : List Byte} {rounds : Int}
    {out : List Byte} (h : bufferOperation d order data key rounds = .ok out) :
    ∃ cs, cipherBlocks d (keyOfBytes order key) (BitVec.ofInt 32 rounds) (blocksOfBytes order data) = some cs ∧
      out = cs.flatMap (blockBytes order) := by
  unfold bufferOperation at h
  split at h
  · nomatch h
  · split at h
    · exact ⟨_, ‹_›, (Except.ok.inj h).symm⟩
    · nomatch h

/-- A buffer whose checks pass is a whole number of blocks (R156). -/
theorem length_of_bufferOperation_ok {d : Direction} {order : ByteOrder} {data key : List Byte} {rounds : Int}
    {out : List Byte} (h : bufferOperation d order data key rounds = .ok out) : data.length % 8 = 0 := by
  by_contra hdata
  by_cases hkey : key.length = 16
  · nomatch h.symm.trans (bufferOperation_of_validate_error (validate_of_buffer_length hkey hdata) d order)
  · nomatch h.symm.trans (bufferOperation_of_validate_error (validate_of_key_length hkey) d order)

theorem blocksOfBytes_getElem? {order : ByteOrder} {data : List Byte} {j : Nat} (h : j < data.length / 8) :
    (blocksOfBytes order data)[j]? = some (blockAt order data j) := by
  simp [blocksOfBytes, h]

/-- Settles O51: block j of the result is the j-th of the blocks transformed one by one. -/
theorem bufferBlocksAreIndependent : Obligations.BufferBlocksAreIndependent := by
  intro order data key rounds d out j h hj
  have hdata := length_of_bufferOperation_ok h
  obtain ⟨cs, hcs, rfl⟩ := blocks_of_bufferOperation_ok h
  have hblock := blocksOfBytes_getElem? (order := order) (show j < data.length / 8 by omega)
  have hblocks := cipherBlocks_eq_some_iff.1 hcs
  obtain ⟨hlt, hget⟩ := List.getElem?_eq_some_iff.1 hblock
  have hj' : j < cs.length := hblocks.length_eq ▸ hlt
  refine ⟨cs[j], ?_, take_drop_flatMap_blockBytes (List.getElem?_eq_getElem hj')⟩
  rw [← hget]
  exact hblocks.get hlt hj'

/-- What a direction makes of a valid buffer, the opposite direction takes back, in either byte order (R162). -/
theorem bufferOperation_round_trip {data key : List Byte} {rounds : Int} (hkey : key.length = 16)
    (hdata : data.length % 8 = 0) (hlow : 1 ≤ rounds) (hhigh : rounds ≤ 2 ^ 32 - 1) (d : Direction)
    (order : ByteOrder) :
    ∃ out, bufferOperation d order data key rounds = .ok out ∧
      bufferOperation (opposite d) order out key rounds = .ok data := by
  obtain ⟨out, hout, hlen⟩ := bufferOperation_ok hkey hdata hlow hhigh d order
  obtain ⟨cs, hcs, rfl⟩ := blocks_of_bufferOperation_ok hout
  have hback : cipherBlocks (opposite d) (keyOfBytes order key) (BitVec.ofInt 32 rounds)
      (blocksOfBytes order (cs.flatMap (blockBytes order))) = some (blocksOfBytes order data) := by
    rw [blocksOfBytes_flatMap]
    exact cipherBlocks_opposite hcs
  have hvalid := validate_ok hkey (hlen ▸ hdata) hlow hhigh
  refine ⟨_, hout, (bufferOperation_of_validate_ok hvalid hback).trans ?_⟩
  rw [blocksOfBytes_flatMap_blockBytes hdata]

/-- Settles O52: the round trip from either direction. -/
theorem bufferRoundTrip : Obligations.BufferRoundTrip := fun order _ _ _ hkey hdata hlow hhigh =>
  ⟨bufferOperation_round_trip hkey hdata hlow hhigh .encrypt order,
    bufferOperation_round_trip hkey hdata hlow hhigh .decrypt order⟩

end Sys2Proof.Machine
end
